-- ==== Sys2Proof/Word.lean ====
section
/-! DEFINITION. The word types of the dandelion PRNG core (00_scope.md R5, R7): everything is unsigned; and the
regions the platform's backed storage is made of (R45). -/

namespace Sys2Proof

/-- A word: an unsigned 64-bit value (R7, parameter `W` of R5). -/
abbrev Word := BitVec 64

/-- A byte of the data memory (R28). -/
abbrev Byte := BitVec 8

/-- A value held in 128 bits: the result of a widening multiply (R8). -/
abbrev DWord := BitVec 128

/-- A command word of format `C` (R61). -/
abbrev CmdWord := BitVec 136

/-- A response word (R66). -/
abbrev RspWord := BitVec 72

/-- The generator state: the ordered pair `(x, y)` (R12, R20). -/
abbrev Gen := Word × Word

/-- A run of `size` byte addresses from `base` up: one entry of the platform's list of backed storage (R45). -/
structure Region where
  base : Nat
  size : Nat
  deriving DecidableEq, Repr

end Sys2Proof
end

