-- ==== Sys2Proof/Config.lean ====
section
/-! DEFINITION. The fixed parameters of R5, the open parameters of R6, and the free values: what the spec leaves without a
value is an opaque constant without a body, so that a proof holds for every value it could have. -/

namespace Sys2Proof.Config

/-- `SHIFT`: the logical right-shift amount in `F` (R5). -/
abbrev shiftAmount : Nat := 19

/-- `ROT`: the right-rotation amount in `F` (R5). -/
abbrev rotAmount : Nat := 7

/-- `FSHIFT`: the right-shift amount in the float quantizer (R5). -/
abbrev floatShift : Nat := 11

/-- `MANT`: the bits kept by the float quantizer (R5). -/
abbrev mantBits : Nat := 53

/-- `CHUNK`: the bytes per raw word in bulk fill (R5). -/
abbrev chunkBytes : Nat := 8

/-- `SEED_EXPAND`, an open parameter (R6, R101): any function from a word to a pair of words.
Free: nothing more is known of it (log entry 4). -/
opaque seedExpand : Word → Gen

/-- The free value behind `seedFallback` (log entry 4). -/
opaque seedFallbackRaw : Gen

/-- `SEED_FALLBACK`, an open parameter (R6): any pair but `(0, 0)`. Every such pair is the value for some
`seedFallbackRaw` (that pair itself), and nothing more is known of it (log entry 4). -/
def seedFallback : Gen := if seedFallbackRaw = (0, 0) then (1, 0) else seedFallbackRaw

/-- `MEM_BACKED`, an open parameter (R6, R45): the backed addresses as a list of regions. Every predicate on the 64-bit addresses
is that of some list; free: nothing more is known of it (log entry 3). -/
opaque memBacked : List Region

/-- What `X` and `Y` hold while they "hold no value" (R24, R30): the `n`-th free word (log entry 1). -/
opaque freeWord : Nat → Word

/-- The `n`-th free length: how far an abandoned `FILL` got is read off it (R191, log entry 6). -/
opaque freeLength : Nat → Nat

end Sys2Proof.Config
end

