-- ==== Sys2Proof/Syntax.lean ====
section
/-! DEFINITION. The commands: one constructor per row of the opcode table (30_encoding.md R63). An operand field the
table calls ignored is no part of the command (R65, R67). -/

namespace Sys2Proof

/-- The nine commands of R63, as R67's decoder gives them. -/
inductive Instr where
  /-- `LDS x, y`: load a state pair directly (R104). -/
  | lds (x y : Word)
  /-- `SEED seed`: create the state from a 64-bit seed (R102). -/
  | seed (seed : Word)
  /-- `GETX`: read `X` (R105). -/
  | getx
  /-- `GETY`: read `Y` (R106). -/
  | gety
  /-- `STAT`: read the status register (R107). -/
  | stat
  /-- `U64`: draw one raw word (R90). -/
  | u64
  /-- `BTW lo, hi`: sample an integer uniformly from `[lo, hi]` (R131). -/
  | btw (lo hi : Word)
  /-- `F64`: draw one double-precision value in `[0, 1)` (R144). -/
  | f64
  /-- `FILL addr, len`: fill a memory region with raw words (R157). -/
  | fill (addr len : Word)
  deriving DecidableEq, Repr

end Sys2Proof
end

