-- ==== Sys2Proof/WellFormed.lean ====
section
/-! DEFINITION. The static checks. A decoded command needs none: both operands are whole words, every value is
accepted (R62, R65), and a bad operand is answered by the command itself (R174 to R176). What the spec does
constrain before a command exists is an operand number written in assembler text (R62, R69), a raw `op` number of the
`.word` directive, and the parameter `SEED_FALLBACK` (R6). -/

namespace Sys2Proof

/-- Every command with word operands is well formed (R62, R65). -/
def Instr.wellFormed : Instr → Bool
  | .lds _ _ => true
  | .seed _ => true
  | .getx => true
  | .gety => true
  | .stat => true
  | .u64 => true
  | .btw _ _ => true
  | .f64 => true
  | .fill _ _ => true

/-- An operand number fits the 64-bit field it goes to (R61, R62). -/
def operandFits (n : Nat) : Bool := decide (n < 2 ^ 64)

/-- An opcode number fits the 8-bit field it goes to (R61). -/
def opcodeFits (n : Nat) : Bool := decide (n < 2 ^ 8)

/-- The constraint R6 puts on `SEED_FALLBACK`: it is not `(0, 0)`. -/
def fallbackOk (p : Gen) : Bool := decide (p ≠ (0, 0))

end Sys2Proof
end

