-- ==== Sys2Proof/Decode.lean ====
section
/-! DEFINITION. The command word (30_encoding.md R61 to R68): its fields, the decoder (total, every undefined `op` the one
value `Illegal`), and the encoder, both written from R63's table. -/

namespace Sys2Proof

/-- `op`, bits 135:128 of the command word (R61). -/
def opField (w : CmdWord) : BitVec 8 := w.extractLsb' 128 8

/-- `a`, bits 127:64 of the command word (R61, R62). -/
def aField (w : CmdWord) : Word := w.extractLsb' 64 64

/-- `b`, bits 63:0 of the command word (R61, R62). -/
def bField (w : CmdWord) : Word := w.extractLsb' 0 64

/-- What the decoder says of a word: one of the nine commands, or `Illegal` (R67). -/
inductive Decoded where
  /-- The word is this command. -/
  | command (i : Instr)
  /-- The word's `op` is in no row of R63's table (R64): one value for all of them (R67). -/
  | illegal
  deriving DecidableEq, Repr

/-- R63's table: the command an `op` selects, with the operand fields it takes. -/
def commandOf (op : BitVec 8) (a b : Word) : Decoded :=
  if op = 0x01 then .command (.lds a b)
  else if op = 0x02 then .command (.seed a)
  else if op = 0x03 then .command .getx
  else if op = 0x04 then .command .gety
  else if op = 0x05 then .command .stat
  else if op = 0x10 then .command .u64
  else if op = 0x11 then .command (.btw a b)
  else if op = 0x12 then .command .f64
  else if op = 0x13 then .command (.fill a b)
  else .illegal

/-- The decoder, total on 136-bit words; it looks at `op` only to choose the command (R67). -/
def decode (w : CmdWord) : Decoded := commandOf (opField w) (aField w) (bField w)

/-- A word from its three fields (R61). -/
def packFields (op : BitVec 8) (a b : Word) : CmdWord := op ++ a ++ b

/-- The `op` of each command (R63). -/
def opcodeOf : Instr → BitVec 8
  | .lds _ _ => 0x01
  | .seed _ => 0x02
  | .getx => 0x03
  | .gety => 0x04
  | .stat => 0x05
  | .u64 => 0x10
  | .btw _ _ => 0x11
  | .f64 => 0x12
  | .fill _ _ => 0x13

/-- The `a` field of each command, zero where it is ignored (R63, R69). -/
def aOperand : Instr → Word
  | .lds x _ => x
  | .seed seed => seed
  | .getx => 0
  | .gety => 0
  | .stat => 0
  | .u64 => 0
  | .btw lo _ => lo
  | .f64 => 0
  | .fill addr _ => addr

/-- The `b` field of each command, zero where it is ignored (R63, R69). -/
def bOperand : Instr → Word
  | .lds _ y => y
  | .seed _ => 0
  | .getx => 0
  | .gety => 0
  | .stat => 0
  | .u64 => 0
  | .btw _ hi => hi
  | .f64 => 0
  | .fill _ len => len

/-- The encoder: R63's opcode, the operands in `a` and `b`, zero in every ignored field (R69). -/
def encode (i : Instr) : CmdWord := packFields (opcodeOf i) (aOperand i) (bOperand i)

/-- The command word whose low `nbits` bits are those of `w` and whose bits above are zero. -/
def tableWord (nbits w : Nat) : CmdWord := BitVec.ofNat 136 (w % 2 ^ nbits)

/-- The command the decoder reads from a row's bits, numbered as the opcode table numbers them: a command is one word of
136 bits and bit 0 is its least significant bit (R61). -/
def decodeTableWord (nbits w : Nat) : Option Instr :=
  if nbits ≤ 136 then
    match decode (tableWord nbits w) with
    | .command i => some i
    | .illegal => none
  else none

end Sys2Proof
end

