-- ==== Sys2Proof/Machine/Operands.lean ====
section
/-! DEFINITION. The arithmetic primitives of 00_scope.md R8 that are no plain `BitVec` operator, each a total function on
words. `a ^^^ b`, `a >>> k`, `a <<< k`, `a + b`, `a - b`, `a % b` and the unsigned `<`, `≤` of `BitVec 64` are R8's
`a ^ b`, `a >> k`, `a << k`, `a +w b`, `a -w b`, `a mod b`, `<`, `<=`. -/

namespace Sys2Proof.Machine

/-- `rotr(a, k)`, right rotation by `1 ≤ k ≤ 63`: two shifts and an OR (R8). -/
def rotr (a : Word) (k : Nat) : Word := (a >>> k) ||| (a <<< (64 - k))

/-- `mulw(a, b)`, the widening multiply: the exact integer product, held in 128 bits (R8). -/
def mulw (a b : Word) : DWord := BitVec.ofNat 128 (a.toNat * b.toNat)

/-- `lo64(p)`, the low half of a 128-bit value (R8). -/
def lo64 (p : DWord) : Word := p.extractLsb' 0 64

/-- `hi64(p)`, the high half of a 128-bit value (R8). -/
def hi64 (p : DWord) : Word := p.extractLsb' 64 64

/-- Byte `j` of a word, `r[8j+7 : 8j]` (R41). -/
def wordByte (r : Word) (j : Nat) : Byte := r.extractLsb' (8 * j) 8

/-- `zext_64` of one bit (R9, R107). -/
def zextBit (b : Bool) : Word := if b then 1 else 0

end Sys2Proof.Machine
end

