-- ==== Sys2Proof/Machine/State.lean ====
section
/-! DEFINITION. The state of the machine as plain data (10_state.md), what it is right after reset (R30, R190), and the
reasons for which a step can stop. -/

namespace Sys2Proof.Machine

/-- The status of a response (R171). The codes `0x06` to `0xFF` are reserved and never produced, so they have no
constructor. -/
inductive Status where
  /-- `OK`. -/
  | ok
  /-- `ILLEGAL`: undefined opcode (R172). -/
  | illegal
  /-- `UNSEEDED`: the command needs a state and `SEEDED = 0` (R173). -/
  | unseeded
  /-- `RANGE`: `BTW` with `lo > hi` (R174). -/
  | range
  /-- `ZERO_STATE`: `LDS 0, 0` (R175). -/
  | zeroState
  /-- `BUF_WRAP`: a `FILL` region passes the top of the address space (R176). -/
  | bufWrap
  deriving DecidableEq, Repr

/-- A response (R66): its status and its value; `rspWord` lays it out in 72 bits. -/
structure Response where
  status : Status
  value : Word
  deriving DecidableEq, Repr

/-- What the host can present to the block (R60, R200). -/
inductive Input where
  /-- One command word on the command interface (R60(a)). -/
  | command (w : CmdWord)
  /-- The reset input, between commands (R60(d), R190). -/
  | reset
  /-- A command word is accepted and reset strikes while that command is in progress (R191). -/
  | resetDuring (w : CmdWord)
  deriving DecidableEq, Repr

/-- The machine. `x`, `y`, `seeded` are the block's own state between two commands (R29); `mem` is the data memory
(R28, R40); `backed` is the platform's parameter `MEM_BACKED`, carried as data so that every claim ranges over it
(R6, R45, log entry 3); `inputs` is what the host will present next and `responses` what it has been answered, oldest
first (R60, R201, log entry 5); `freeCount` is the model's own count of the free values used so far (log entry 1). -/
structure State where
  /-- `X` (R20). -/
  x : Word
  /-- `Y` (R20). -/
  y : Word
  /-- `SEEDED`, bit 0 of `STATUS` (R23). -/
  seeded : Bool
  /-- The bytes `FILL` has written, addresses strictly rising; an unlisted address holds no value the model knows. -/
  mem : List Host.Cell
  /-- `MEM_BACKED` as a list of regions. -/
  backed : List Region
  /-- What the host presents next, oldest first. -/
  inputs : List Input
  /-- The responses issued, oldest first. -/
  responses : List Response
  /-- How many free values have been used: the model's own field. -/
  freeCount : Nat
  deriving DecidableEq, Repr

/-- Right after reset (R30, R190): `SEEDED = 0`, no command in progress, no response pending. `X` and `Y` hold no value:
free words, which no proof can see and no rule's result depends on (R24; DESIGN CHOICE, log entry 1). The data memory is
not touched by reset and nothing is known of it (log entry 2); which addresses are backed is the platform's open parameter
(R6, log entry 3). -/
def State.reset : State where
  x := Config.freeWord 0
  y := Config.freeWord 1
  seeded := false
  mem := []
  backed := Config.memBacked
  inputs := []
  responses := []
  freeCount := 2

/-- Why the machine stops with a fault. -/
inductive Fault where
  /-- Raised by `BTW` when none of the first 2^128 raw words after the first is accepted: the loop of R124 has no
  iteration limit (R129) and then never ends, since the draws have gone round their whole cycle. By R129 this does not
  happen from a pair other than `(0, 0)`. Safe: nothing is claimed of a machine that is stuck. -/
  | samplerNeverAccepts
  deriving DecidableEq, Repr

/-- Why the machine refuses to give a step a meaning. -/
inductive Refusal where
  /-- Raised by an arm of `exec` whose command has no meaning yet; no arm does. Safe. -/
  | notModelled (mnemonic : String)
  /-- Raised by a `FILL` whose region contains an unbacked address: the memory port carries no error back and the spec
  gives such a command no meaning, so a model refuses it (R45). Safe. -/
  | unbackedMemory
  deriving DecidableEq, Repr

end Sys2Proof.Machine
end

