-- ==== Sys2Proof/Machine/Flags.lean ====
section
/-! DEFINITION. The block has no flags and no condition codes (R26). What it has in their place: the status register, read
as one word (R23), and the status code and layout of a response (R66, R171). -/

namespace Sys2Proof.Machine

/-- `STATUS` as read: bit 0 is `SEEDED`, bits 63:1 read as zero (R23, R107). -/
def statusWord (s : State) : Word := zextBit s.seeded

/-- The status codes of R171. -/
def statusCode : Status → BitVec 8
  | .ok => 0x00
  | .illegal => 0x01
  | .unseeded => 0x02
  | .range => 0x03
  | .zeroState => 0x04
  | .bufWrap => 0x05

/-- The 72-bit response word: `status` in bits 71:64, `value` in bits 63:0 (R66). -/
def rspWord (r : Response) : RspWord := statusCode r.status ++ r.value

/-- The response words the host has received, oldest first (R60(b), R201). -/
def responseWords (s : State) : List RspWord := s.responses.map rspWord

end Sys2Proof.Machine
end

