-- ==== Sys2Proof/Machine/Ops.lean ====
section
/-! DEFINITION. The named operations over memory, registers and interfaces that every command is built from: byte writes
(R40, R43), backing (R45), the register pair (R20, R22), the response (R60(b), R66), raising a condition (R170) and taking
reset (R190). -/

namespace Sys2Proof.Machine

/-! Memory: (address, byte) pairs, addresses strictly rising. -/

/-- What the model knows of one byte: the byte last written there, or `none` where no `FILL` has written (log entry 2).
No command reads memory (R44); this is the observer's view. -/
def memRead : List Host.Cell → Nat → Option Byte
  | [], _ => none
  | c :: cs, a => if a = c.1 then some c.2 else memRead cs a

/-- `MemWrite(addr, 1, v)` (R9): one byte, keeping the addresses strictly rising. -/
def memWrite : List Host.Cell → Nat → Byte → List Host.Cell
  | [], a, v => [(a, v)]
  | c :: cs, a, v =>
    if a < c.1 then (a, v) :: c :: cs
    else if a = c.1 then (a, v) :: cs
    else c :: memWrite cs a v

/-- Byte writes issued one after the other, in the order of the list (R47). -/
def memWriteAll : List Host.Cell → List Host.Cell → List Host.Cell
  | m, [] => m
  | m, c :: cs => memWriteAll (memWrite m c.1 c.2) cs

/-- The canonical form from a lower bound on: addresses strictly rising and below 2^64 (R40). An unlisted address reads
as no value, so no entry can equal what it would read as. -/
def memWfFrom : Nat → List Host.Cell → Bool
  | _, [] => true
  | low, c :: cs => decide (low ≤ c.1) && decide (c.1 < 2 ^ 64) && memWfFrom (c.1 + 1) cs

/-- The canonical form of memory. -/
def memWf (m : List Host.Cell) : Bool := memWfFrom 0 m

/-- The address lies in the region. -/
def inRegion (r : Region) (a : Nat) : Bool := decide (r.base ≤ a) && decide (a < r.base + r.size)

/-- `MEM_BACKED(a)` on the platform the list describes (R6, R45). -/
def isBacked (backed : List Region) (a : Nat) : Bool := backed.any (fun r => inRegion r a)

/-- Every one of the `len` addresses from `a` up is backed (R45). -/
def regionBacked (backed : List Region) (a : Nat) : Nat → Bool
  | 0 => true
  | len + 1 => isBacked backed a && regionBacked backed (a + 1) len

/-! The register pair. -/

/-- The generator state `(X, Y)` (R20). -/
def State.pair (s : State) : Gen := (s.x, s.y)

/-- A drawing command writes its outgoing state back to `X` and `Y` (R22). -/
def State.setPair (s : State) (g : Gen) : State := { s with x := g.1, y := g.2 }

/-- `SEED` and `LDS` create the state: `X <- x ; Y <- y ; SEEDED <- 1` (R102, R104). -/
def State.establish (s : State) (g : Gen) : State := { s with x := g.1, y := g.2, seeded := true }

/-- The data memory after a `FILL` (R157). -/
def State.setMem (s : State) (m : List Host.Cell) : State := { s with mem := m }

/-! Responses. -/

/-- One response word is issued (R60(b)). -/
def State.answer (s : State) (r : Response) : State := { s with responses := s.responses ++ [r] }

/-- `respond(v)`: the command ends with status `OK` and value `v` (R9). -/
def State.respond (s : State) (v : Word) : State := s.answer ⟨.ok, v⟩

/-- `raise <Status>`: the command ends at once with that status and value 0, and writes no register and no memory
(R9, R170, R178). This is all that taking an exception is in this block: no vector, nothing saved, no mode; and there
is no return from it (R179). -/
def State.raise (s : State) (c : Status) : State := s.answer ⟨c, 0⟩

/-! Reset and the command interface. -/

/-- Reset is taken (R190): `SEEDED = 0`, `X` and `Y` hold no value (free words, fresh at every reset: U6, log entry 1), no response is
issued, the data memory is untouched. -/
def State.takeReset (s : State) : State :=
  { s with x := Config.freeWord s.freeCount, y := Config.freeWord (s.freeCount + 1), seeded := false,
           freeCount := s.freeCount + 2 }

/-- The block has accepted what the host presented; `rest` is what the host presents after it (R60(a)). -/
def State.accept (s : State) (rest : List Input) : State := { s with inputs := rest }

/-- The host presents one more command word, before all others. -/
def State.present (s : State) (w : CmdWord) : State := { s with inputs := .command w :: s.inputs }

end Sys2Proof.Machine
end

