-- ==== Sys2Proof/Machine/Engine.lean ====
section
/-! DEFINITION. The transition engine, the output-tempering unit and `U64` (40_transition_output.md). -/

namespace Sys2Proof.Machine

/-- `F(x, y) = (y ^ (y >> 19), x ^ rotr(y, 7))` (R80). -/
def transition (g : Gen) : Gen :=
  (g.2 ^^^ (g.2 >>> Config.shiftAmount), g.1 ^^^ rotr g.2 Config.rotAmount)

/-- `h(x) = lo64(mulw(x, x)) ^ hi64(mulw(x, x))` (R81). -/
def foldSquare (x : Word) : Word := lo64 (mulw x x) ^^^ hi64 (mulw x x)

/-- `G(x, y) = y +w h(x)` (R81). -/
def temper (g : Gen) : Word := g.2 + foldSquare g.1

/-- `next_word`: `F` first, then `G` of the new pair; the word and the new state (R82). -/
def nextWord (g : Gen) : Word × Gen := (temper (transition g), transition g)

/-- `F_inv`, the inverse of `F` (R83). -/
def transitionInv (g : Gen) : Gen :=
  let y := g.1 ^^^ (g.1 >>> 19) ^^^ (g.1 >>> 38) ^^^ (g.1 >>> 57)
  (g.2 ^^^ rotr y 7, y)

/-- The state `n` draws later: `F^n` (R91). -/
def advance : Nat → Gen → Gen
  | 0, g => g
  | n + 1, g => advance n (transition g)

/-- The `i`-th raw word drawn after state `g`, counted from 1: `G(F^i(g))` (R91). -/
def rawWord (g : Gen) (i : Nat) : Word := temper (advance i g)

/-- `U64`: draw one raw word (R90). -/
def execU64 (s : State) : Host.Outcome State Fault Refusal :=
  if s.seeded = false then .next (s.raise .unseeded)
  else
    let d := nextWord s.pair
    .next ((s.setPair d.2).respond d.1)

end Sys2Proof.Machine
end

