-- ==== Sys2Proof/Machine/BulkFill.lean ====
section
/-! DEFINITION. The bulk-fill sequencer `FILL` (44_bulk_fill.md), and a `FILL` cut short by reset (R191). -/

namespace Sys2Proof.Machine

/-- The writes of the low `count` bytes of a raw word, little-endian, from address `a` up (R41, R151). -/
def wordWrites (a count : Nat) (r : Word) : List Host.Cell :=
  (List.range count).map (fun j => (a + j, wordByte r j))

/-- `n` full chunks from address `a` up, one draw each (R152): the byte writes in the order they are issued, and the state
after the draws. -/
def fillChunks : Nat → Nat → Gen → List Host.Cell × Gen
  | 0, _, g => ([], g)
  | n + 1, a, g =>
    let d := nextWord g
    let more := fillChunks n (a + Config.chunkBytes) d.2
    (wordWrites a Config.chunkBytes d.1 ++ more.1, more.2)

/-- A whole fill of `len` bytes at `a` (R157): the full chunks, then, if bytes are left, one more draw and its low bytes
(R153). The writes in the order they are issued (R47, R159), and the state after the draws. -/
def fillRun (a len : Nat) (g : Gen) : List Host.Cell × Gen :=
  let c := fillChunks (len / Config.chunkBytes) a g
  if len % Config.chunkBytes = 0 then c
  else
    let d := nextWord c.2
    (c.1 ++ wordWrites (a + Config.chunkBytes * (len / Config.chunkBytes)) (len % Config.chunkBytes) d.1, d.2)

/-- The region passes the top of the address space, the sum taken as an exact integer (R158). -/
def bufWraps (a len : Word) : Bool := decide (2 ^ 64 < a.toNat + len.toNat)

/-- `FILL`: fill a memory region with raw words (R157). Both checks come before the first draw and the first write; a
region with an unbacked address has no meaning (R45). -/
def execFill (a len : Word) (s : State) : Host.Outcome State Fault Refusal :=
  if s.seeded = false then .next (s.raise .unseeded)
  else if bufWraps a len then .next (s.raise .bufWrap)
  else if regionBacked s.backed a.toNat len.toNat = false then .refused .unbackedMemory
  else
    let r := fillRun a.toNat len.toNat s.pair
    .next (((s.setMem (memWriteAll s.mem r.1)).setPair r.2).respond 0)

/-- How many byte writes an abandoned `FILL` of `len` bytes had performed: a free value, at most `len` (R191, U13, log
entry 6). Which free value it is, is read off `freeCount`: that two instances with equal counts stop after equally many bytes
is the model's choice, not the spec's (DESIGN CHOICE, log entry 6). -/
def writtenBeforeReset (n len : Nat) : Nat := Config.freeLength n % (len + 1)

/-- A `FILL` in progress when reset strikes (R191): the first writes of R47's order have landed, as many as the free
length says, and reset is taken without a response. A `FILL` that answers an error writes nothing (R157), so only reset is
taken; a region with an unbacked address has no meaning (R45). -/
def abandonFill (a len : Word) (s : State) : Host.Outcome State Fault Refusal :=
  if s.seeded = false then .next s.takeReset
  else if bufWraps a len then .next s.takeReset
  else if regionBacked s.backed a.toNat len.toNat = false then .refused .unbackedMemory
  else
    let r := fillRun a.toNat len.toNat s.pair
    .next (s.setMem (memWriteAll s.mem (r.1.take (writtenBeforeReset s.freeCount len.toNat)))).takeReset

end Sys2Proof.Machine
end

