-- ==== Sys2Proof/Machine/Abandon.lean ====
section
/-! DEFINITION. Reset while a command is in progress (70_reset_and_hazards.md R191). -/

namespace Sys2Proof.Machine

/-- The command `i` is abandoned by reset: no response is issued for it, and the block is as reset leaves it; only a
`FILL` may have left a trace, in memory (R191). -/
def abandon (i : Instr) (s : State) : Host.Outcome State Fault Refusal :=
  match i with
  | .lds _ _ => .next s.takeReset
  | .seed _ => .next s.takeReset
  | .getx => .next s.takeReset
  | .gety => .next s.takeReset
  | .stat => .next s.takeReset
  | .u64 => .next s.takeReset
  | .btw _ _ => .next s.takeReset
  | .f64 => .next s.takeReset
  | .fill a len => abandonFill a len s

/-- The word `w` was accepted and reset strikes before its response (R191): an illegal word changes nothing (R172), so
reset is all there is. -/
def abandonWord (w : CmdWord) (s : State) : Host.Outcome State Fault Refusal :=
  match decode w with
  | .illegal => .next s.takeReset
  | .command i => abandon i s

end Sys2Proof.Machine
end

