-- ==== Sys2Proof/Machine/Quantizer.lean ====
section
/-! DEFINITION. The float quantizer `F64` (43_float.md), by integer operations only (R143). -/

namespace Sys2Proof.Machine

/-- The position of the most significant 1 bit of `k` among bits `n` to 0, or 0 if there is none (R142). -/
def topBitFrom (k : Word) : Nat → Nat
  | 0 => 0
  | n + 1 => if k.getLsbD (n + 1) then n + 1 else topBitFrom k n

/-- `f64_bits(k)`, for `k` in `[0, 2^53 - 1]` (R142): the double-precision pattern of `k * 2^-53`. -/
def f64Bits (k : Word) : Word :=
  if k = 0 then 0
  else
    let e := topBitFrom k 52
    (BitVec.ofNat 64 (970 + e) <<< 52) ||| ((k <<< (52 - e)) &&& 0x000FFFFFFFFFFFFF)

/-- The response value of `F64` for the raw word `r` (R141, R142). -/
def quantize (r : Word) : Word := f64Bits (r >>> Config.floatShift)

/-- `F64`: draw one double-precision value in `[0, 1)` (R144). -/
def execF64 (s : State) : Host.Outcome State Fault Refusal :=
  if s.seeded = false then .next (s.raise .unseeded)
  else
    let d := nextWord s.pair
    .next ((s.setPair d.2).respond (quantize d.1))

end Sys2Proof.Machine
end

