-- ==== Sys2Proof/Machine/Sampler.lean ====
section
/-! DEFINITION. The integer-range sampler `BTW` (42_bounded_integer.md). -/

namespace Sys2Proof.Machine

/-- `span = (hi -w lo) +w 1` (R122). -/
def spanOf (lo hi : Word) : Word := (hi - lo) + 1

/-- The rejection threshold `t = (2^64 - span) mod span`, that is `((0 -w span) mod span)` (R124). -/
def threshold (span : Word) : Word := (0 - span) % span

/-- How many redraws the model follows: one for every pair `(x, y)` there is. `F` is a bijection on the pairs (R83), so
that many draws go round the whole cycle of any state, and a loop that has not ended by then never ends: this is no cap on
R124's loop (R129). -/
def redrawBound : Nat := 2 ^ 128

/-- The inner loop of R124: while `frac < t`, redraw. `m` is always the product of the latest draw. -/
def redraw (span t : Word) : Nat → DWord → Gen → Option (DWord × Gen)
  | 0, m, g => if lo64 m < t then none else some (m, g)
  | n + 1, m, g =>
    if lo64 m < t then
      let d := nextWord g
      redraw span t n (mulw d.1 span) d.2
    else some (m, g)

/-- `sample(lo, span)` (R124): the value and the state after the last draw; `none` where the loop never ends. -/
def sample (lo span : Word) (g : Gen) : Option (Word × Gen) :=
  let d := nextWord g
  let m := mulw d.1 span
  if lo64 m < span then
    match redraw span (threshold span) redrawBound m d.2 with
    | some r => some (lo + hi64 r.1, r.2)
    | none => none
  else some (lo + hi64 m, d.2)

/-- What a `BTW` with `lo ≤ hi` draws: one raw word unchanged for the full range (R123), else a sample (R124). -/
def between (lo hi : Word) (g : Gen) : Option (Word × Gen) :=
  if spanOf lo hi = 0 then some (nextWord g) else sample lo (spanOf lo hi) g

/-- `BTW`: sample an integer from the inclusive range `[lo, hi]` (R131). -/
def execBtw (lo hi : Word) (s : State) : Host.Outcome State Fault Refusal :=
  if s.seeded = false then .next (s.raise .unseeded)
  else if hi < lo then .next (s.raise .range)
  else
    match between lo hi s.pair with
    | some r => .next ((s.setPair r.2).respond r.1)
    | none => .fault .samplerNeverAccepts

end Sys2Proof.Machine
end

