-- ==== Sys2Proof/Machine/Seeding.lean ====
section
/-! DEFINITION. Seed expansion and the state-access commands `SEED`, `LDS`, `GETX`, `GETY`, `STAT`
(41_seed_and_state.md). -/

namespace Sys2Proof.Machine

/-- `LDS`: load a state pair; the zero pair is refused (R104). -/
def execLds (x y : Word) (s : State) : Host.Outcome State Fault Refusal :=
  if x = 0 ∧ y = 0 then .next (s.raise .zeroState)
  else .next ((s.establish (x, y)).respond 0)

/-- The pair `SEED` establishes, for any parameters `SEED_EXPAND` and `SEED_FALLBACK` (R102). -/
def seedPair (expand : Word → Gen) (fallback : Gen) (seed : Word) : Gen :=
  if expand seed = (0, 0) then fallback else expand seed

/-- `SEED` under given parameters (R6, R102). -/
def execSeedWith (expand : Word → Gen) (fallback : Gen) (seed : Word) (s : State) :
    Host.Outcome State Fault Refusal :=
  .next ((s.establish (seedPair expand fallback seed)).respond 0)

/-- `SEED`: create the state from a 64-bit seed, under the open parameters (R102, log entry 4). -/
def execSeed (seed : Word) (s : State) : Host.Outcome State Fault Refusal :=
  execSeedWith Config.seedExpand Config.seedFallback seed s

/-- `mix` of the reference instantiation (R103). -/
def seedMix (z : Word) : Word :=
  let z1 := (z ^^^ (z >>> 30)) * 0xBF58476D1CE4E5B9
  let z2 := (z1 ^^^ (z1 >>> 27)) * 0x94D049BB133111EB
  z2 ^^^ (z2 >>> 31)

/-- `SEED_EXPAND_REF` (R103): the spec's own instantiation, for running tests; no command uses it. -/
def seedExpandRef (seed : Word) : Gen :=
  (seedMix (seed + 0x9E3779B97F4A7C15), seedMix (seed + 0x9E3779B97F4A7C15 + 0x9E3779B97F4A7C15))

/-- `SEED_FALLBACK_REF` (R103). -/
def seedFallbackRef : Gen := (1, 0)

/-- `GETX`: read `X` (R105). -/
def execGetx (s : State) : Host.Outcome State Fault Refusal :=
  if s.seeded = false then .next (s.raise .unseeded) else .next (s.respond s.x)

/-- `GETY`: read `Y` (R106). -/
def execGety (s : State) : Host.Outcome State Fault Refusal :=
  if s.seeded = false then .next (s.raise .unseeded) else .next (s.respond s.y)

/-- `STAT`: read the status register, in every state (R107). -/
def execStat (s : State) : Host.Outcome State Fault Refusal := .next (s.respond (statusWord s))

end Sys2Proof.Machine
end

