-- ==== Sys2Proof/Machine/Dispatch.lean ====
section
/-! DEFINITION. The one match that sends each command to its meaning. -/

namespace Sys2Proof.Machine

def exec (i : Instr) (s : State) : Host.Outcome State Fault Refusal :=
  match i with
  | .lds x y => Sys2Proof.Machine.execLds x y s
  | .seed v => Sys2Proof.Machine.execSeed v s
  | .getx => Sys2Proof.Machine.execGetx s
  | .gety => Sys2Proof.Machine.execGety s
  | .stat => Sys2Proof.Machine.execStat s
  | .u64 => Sys2Proof.Machine.execU64 s
  | .btw lo hi => Sys2Proof.Machine.execBtw lo hi s
  | .f64 => Sys2Proof.Machine.execF64 s
  | .fill a len => Sys2Proof.Machine.execFill a len s

end Sys2Proof.Machine
end

