-- ==== Sys2Proof/Machine/Step.lean ====
section
/-! DEFINITION. One step: the block takes what the host presents next (R10, R25, R60). Commands are atomic (R194), so a step is
a whole command; with nothing presented the block holds its state and does nothing (R188). -/

namespace Sys2Proof.Machine

/-- A command word is executed: an undefined `op` answers `ILLEGAL` and changes nothing (R64, R172), checked before all
else (R177); a command has its own meaning. -/
def runWord (w : CmdWord) (s : State) : Host.Outcome State Fault Refusal :=
  match decode w with
  | .illegal => .next (s.raise .illegal)
  | .command i => exec i s

/-- One step. -/
def step (s : State) : Host.Outcome State Fault Refusal :=
  match s.inputs with
  | [] => .next s
  | .command w :: rest => runWord w (s.accept rest)
  | .reset :: rest => .next (s.accept rest).takeReset
  | .resetDuring w :: rest => abandonWord w (s.accept rest)

/-- `s` with the command word whose low `nbits` bits are those of `w`, the bits above zero, presented next (log entry 5). -/
def State.withFetchWord (s : State) (nbits w : Nat) : State := s.present (tableWord nbits w)

end Sys2Proof.Machine
end

