-- ==== Sys2Proof/Laws/Engine.lean ====
section
/-! SUPPORT. Small laws of the engine's functions: what one bit of a rotation is, that `F` is linear (R85), and how `F^n`
composes (R91). -/

namespace Sys2Proof.Machine

/-- Bit `i` of `rotr(a, 7)` is bit `(i + 7) mod 64` of `a` (R8). -/
theorem getLsbD_rotr_seven (a : Word) {i : Nat} (h : i < 64) : (rotr a 7).getLsbD i = a.getLsbD ((i + 7) % 64) := by
  unfold rotr
  simp only [BitVec.getLsbD_or, BitVec.getLsbD_ushiftRight, BitVec.getLsbD_shiftLeft]
  by_cases hi : i < 57
  · have h1 : (i + 7) % 64 = 7 + i := by omega
    simp [h1, hi]
  · have h1 : (i + 7) % 64 = i - 57 := by omega
    have h2 : a.getLsbD (7 + i) = false := BitVec.getLsbD_of_ge _ _ (by omega)
    simp [h1, h2, hi, h]

/-- `rotr` distributes over XOR. -/
theorem rotr_seven_xor (a b : Word) : rotr (a ^^^ b) 7 = rotr a 7 ^^^ rotr b 7 := by
  refine BitVec.eq_of_getLsbD_eq fun i h => ?_
  simp only [BitVec.getLsbD_xor, getLsbD_rotr_seven _ h]

/-- The sum of two pairs over the field of two elements (R85). -/
def xorGen (g h : Gen) : Gen := (g.1 ^^^ h.1, g.2 ^^^ h.2)

/-- `F` is linear over the field of two elements (R85). -/
theorem transition_xorGen (g h : Gen) : transition (xorGen g h) = xorGen (transition g) (transition h) := by
  refine Prod.ext ?_ ?_
  · refine BitVec.eq_of_getLsbD_eq fun i _ => ?_
    simp only [transition, xorGen, BitVec.getLsbD_xor, BitVec.getLsbD_ushiftRight]
    cases h.2.getLsbD i <;> cases g.2.getLsbD i <;> simp
  · simp only [transition, xorGen, rotr_seven_xor]
    refine BitVec.eq_of_getLsbD_eq fun i _ => ?_
    simp only [BitVec.getLsbD_xor]
    cases g.1.getLsbD i <;> cases h.1.getLsbD i <;> simp

@[simp] theorem advance_zero (g : Gen) : advance 0 g = g := rfl

@[simp] theorem advance_succ (n : Nat) (g : Gen) : advance (n + 1) g = advance n (transition g) := rfl

/-- `F^n` is the `n`-th iterate of `F`. -/
theorem advance_eq_iterate (n : Nat) (g : Gen) : advance n g = transition^[n] g := by
  induction n generalizing g with
  | zero => rfl
  | succ n ih => simpa using ih (transition g)

/-- `F^(m + n)` is `F^n` after `F^m`. -/
theorem advance_add (m n : Nat) (g : Gen) : advance (m + n) g = advance n (advance m g) := by
  simp only [advance_eq_iterate, Nat.add_comm m n, Function.iterate_add_apply]

/-- The last draw of `F^(n + 1)`, taken apart. -/
theorem advance_succ_last (n : Nat) (g : Gen) : advance (n + 1) g = transition (advance n g) := by
  simp only [advance_eq_iterate, Function.iterate_succ_apply']

/-- A draw gives the next raw word and the state one draw later (R82, R91). -/
theorem nextWord_eq (g : Gen) : nextWord g = (rawWord g 1, advance 1 g) := rfl

/-- The raw words after one draw are those of the state before it, counted on (R91). -/
theorem rawWord_transition (g : Gen) (i : Nat) : rawWord (transition g) i = rawWord g (i + 1) := rfl

end Sys2Proof.Machine
end

