-- ==== Sys2Proof/Laws/Memory.lean ====
section
/-! SUPPORT. The laws of memory: a read after a write, and that every memory operation keeps the canonical form. -/

namespace Sys2Proof.Machine

/-- A read after a write gives the byte written at that address, and elsewhere what was there before. -/
theorem memRead_memWrite (m : List Host.Cell) (a : Nat) (v : Byte) (b : Nat) :
    memRead (memWrite m a v) b = if b = a then some v else memRead m b := by
  induction m with
  | nil => simp [memWrite, memRead]
  | cons c cs ih =>
    unfold memWrite
    by_cases h1 : a < c.1
    · simp [h1, memRead]
    · by_cases h2 : a = c.1
      · rw [if_neg h1, if_pos h2, h2]
        by_cases hb : b = c.1 <;> simp [memRead, hb]
      · simp only [h1, h2, if_false, memRead, ih]
        by_cases hb : b = c.1
        · have : c.1 ≠ a := fun h => h2 h.symm
          simp [hb, this]
        · simp [hb]

@[simp] theorem memRead_memWrite_same (m : List Host.Cell) (a : Nat) (v : Byte) :
    memRead (memWrite m a v) a = some v := by simp [memRead_memWrite]

theorem memRead_memWrite_of_ne (m : List Host.Cell) (v : Byte) {a b : Nat} (h : b ≠ a) :
    memRead (memWrite m a v) b = memRead m b := by simp [memRead_memWrite, h]

/-- A lower bound may be lowered. -/
theorem memWfFrom_mono {low low' : Nat} (h : low' ≤ low) {m : List Host.Cell} (hm : memWfFrom low m = true) :
    memWfFrom low' m = true := by
  cases m with
  | nil => rfl
  | cons c cs =>
    simp only [memWfFrom, Bool.and_eq_true, decide_eq_true_eq] at hm ⊢
    exact ⟨⟨h.trans hm.1.1, hm.1.2⟩, hm.2⟩

theorem memWrite_wfFrom {low a : Nat} {m : List Host.Cell} (hm : memWfFrom low m = true) (hlow : low ≤ a)
    (ha : a < 2 ^ 64) (v : Byte) : memWfFrom low (memWrite m a v) = true := by
  induction m generalizing low with
  | nil => simp only [memWrite, memWfFrom, Bool.and_eq_true, decide_eq_true_eq]; exact ⟨⟨hlow, ha⟩, trivial⟩
  | cons c cs ih =>
    simp only [memWfFrom, Bool.and_eq_true, decide_eq_true_eq] at hm
    unfold memWrite
    by_cases h1 : a < c.1
    · simp only [h1, if_true, memWfFrom, Bool.and_eq_true, decide_eq_true_eq]
      exact ⟨⟨hlow, ha⟩, ⟨h1, hm.1.2⟩, hm.2⟩
    · by_cases h2 : a = c.1
      · subst h2
        simp only [h1, if_false, if_true, memWfFrom, Bool.and_eq_true, decide_eq_true_eq]
        exact ⟨⟨hlow, ha⟩, hm.2⟩
      · simp only [h1, h2, if_false, memWfFrom, Bool.and_eq_true, decide_eq_true_eq]
        exact ⟨hm.1, ih hm.2 (by omega)⟩

/-- A byte write inside the address space keeps the canonical form. -/
theorem memWrite_wf {a : Nat} {m : List Host.Cell} (hm : memWf m = true) (ha : a < 2 ^ 64) (v : Byte) :
    memWf (memWrite m a v) = true := memWrite_wfFrom hm (Nat.zero_le a) ha v

/-- Byte writes inside the address space keep the canonical form. -/
theorem memWriteAll_wf {m ws : List Host.Cell} (hm : memWf m = true) (h : ∀ c ∈ ws, c.1 < 2 ^ 64) :
    memWf (memWriteAll m ws) = true := by
  induction ws generalizing m with
  | nil => exact hm
  | cons c cs ih =>
    exact ih (memWrite_wf hm (h c (List.mem_cons_self ..)) _) fun d hd => h d (List.mem_cons_of_mem _ hd)

@[simp] theorem memWriteAll_nil (m : List Host.Cell) : memWriteAll m [] = m := rfl

theorem memWriteAll_append (m ws vs : List Host.Cell) : memWriteAll m (ws ++ vs) = memWriteAll (memWriteAll m ws) vs := by
  induction ws generalizing m with
  | nil => rfl
  | cons c cs ih => exact ih _

/-- An address none of the writes goes to reads as before. -/
theorem memRead_memWriteAll_of_notMem {a : Nat} (m ws : List Host.Cell) (h : ∀ c ∈ ws, c.1 ≠ a) :
    memRead (memWriteAll m ws) a = memRead m a := by
  induction ws generalizing m with
  | nil => rfl
  | cons c cs ih =>
    rw [memWriteAll, ih _ fun d hd => h d (List.mem_cons_of_mem _ hd),
      memRead_memWrite_of_ne _ _ (h c (List.mem_cons_self ..)).symm]

/-- After writes to different addresses, each address reads as the byte written there. -/
theorem memRead_memWriteAll_of_mem {m ws : List Host.Cell} (hn : (ws.map Prod.fst).Nodup) {c : Host.Cell} (hc : c ∈ ws) :
    memRead (memWriteAll m ws) c.1 = some c.2 := by
  induction ws generalizing m with
  | nil => cases hc
  | cons d ds ih =>
    rw [List.map_cons, List.nodup_cons] at hn
    rcases List.mem_cons.1 hc with rfl | hc
    · rw [memWriteAll, memRead_memWriteAll_of_notMem, memRead_memWrite_same]
      exact fun e he h => hn.1 (h ▸ List.mem_map_of_mem he)
    · exact ih hn.2 hc

/-- The memory reset leaves is in canonical form. -/
theorem reset_memWf : memWf State.reset.mem = true := rfl

/-- `regionBacked` says that every address of the region is backed (R45). -/
theorem regionBacked_iff (backed : List Region) (a len : Nat) :
    regionBacked backed a len = true ↔ ∀ i < len, isBacked backed (a + i) = true := by
  induction len generalizing a with
  | zero => simp [regionBacked]
  | succ n ih =>
    simp only [regionBacked, Bool.and_eq_true, ih]
    constructor
    · rintro ⟨h0, h⟩ i hi
      cases i with
      | zero => exact h0
      | succ i => rw [Nat.add_comm i 1, ← Nat.add_assoc]; exact h i (by omega)
    · intro h
      refine ⟨h 0 (by omega), fun i hi => ?_⟩
      rw [Nat.add_assoc, Nat.add_comm 1 i]
      exact h (i + 1) (by omega)

/-- On a platform whose one region is the whole address space every region inside it is backed. -/
theorem regionBacked_whole (a len : Nat) (h : a + len ≤ 2 ^ 64) : regionBacked [⟨0, 2 ^ 64⟩] a len = true := by
  rw [regionBacked_iff]
  intro i hi
  simp only [isBacked, List.any_cons, List.any_nil, Bool.or_false, inRegion, Bool.and_eq_true, decide_eq_true_eq]
  omega

end Sys2Proof.Machine
end

