-- ==== Sys2Proof/Laws/Fill.lean ====
section
/-! SUPPORT. What a fill issues: its byte writes, in order, in closed form (R47, R53), and the state its draws leave (R155). -/

namespace Sys2Proof.Machine

/-- The `i`-th byte write of a fill at `a` from state `g`: byte `i mod 8` of raw word `i / 8 + 1` (R152, R153). -/
def fillCell (a : Nat) (g : Gen) (i : Nat) : Host.Cell := (a + i, wordByte (rawWord g (i / 8 + 1)) (i % 8))

/-- One chunk's writes are the first byte writes of a fill. -/
theorem wordWrites_eq (a count : Nat) (g : Gen) (h : count ≤ 8) :
    wordWrites a count (rawWord g 1) = (List.range count).map (fillCell a g) := by
  refine List.map_congr_left fun j hj => ?_
  have hj8 : j < 8 := (List.mem_range.1 hj).trans_le h
  simp [fillCell, Nat.div_eq_of_lt hj8, Nat.mod_eq_of_lt hj8]

/-- A chunk further on, counted from the state one draw later. -/
theorem fillCell_chunk (a : Nat) (g : Gen) (i : Nat) : fillCell (a + 8) (transition g) i = fillCell a g (8 + i) := by
  have h1 : (8 + i) / 8 = i / 8 + 1 := by omega
  have h2 : (8 + i) % 8 = i % 8 := by omega
  simp only [fillCell, rawWord_transition, h1, h2, Nat.add_assoc]

/-- `n` full chunks are the first `8 n` byte writes, and `n` draws (R152). -/
theorem fillChunks_eq (n a : Nat) (g : Gen) :
    fillChunks n a g = ((List.range (8 * n)).map (fillCell a g), advance n g) := by
  induction n generalizing a g with
  | zero => rfl
  | succ n ih =>
    have hw : wordWrites a 8 (temper (transition g)) = (List.range 8).map (fillCell a g) :=
      wordWrites_eq a 8 g (Nat.le_refl 8)
    have hr : (List.range (8 * n)).map (fillCell (a + 8) (transition g)) =
        (List.range (8 * n)).map (fun i => fillCell a g (8 + i)) :=
      List.map_congr_left fun i _ => fillCell_chunk a g i
    have h8 : 8 * (n + 1) = 8 + 8 * n := by omega
    rw [fillChunks]
    simp only [Config.chunkBytes, ih, nextWord, hw, hr]
    rw [h8, List.range_add, List.map_append, List.map_map, advance_succ]
    rfl

/-- How many draws a fill of `len` bytes makes: `ceil(len / 8)` (R155). -/
def fillDraws (len : Nat) : Nat := (len + 7) / 8

/-- A whole fill: `len` byte writes in ascending address order, and `ceil(len / 8)` draws (R47, R53, R155). -/
theorem fillRun_eq (a len : Nat) (g : Gen) :
    fillRun a len g = ((List.range len).map (fillCell a g), advance (fillDraws len) g) := by
  have hlen : len = 8 * (len / 8) + len % 8 := by omega
  unfold fillRun
  simp only [Config.chunkBytes, fillChunks_eq]
  by_cases h0 : len % 8 = 0
  · have hd : fillDraws len = len / 8 := by unfold fillDraws; omega
    have hl : 8 * (len / 8) = len := by omega
    simp only [h0, if_true, hd, hl]
  · have hd : fillDraws len = len / 8 + 1 := by unfold fillDraws; omega
    have hw : wordWrites (a + 8 * (len / 8)) (len % 8) (temper (transition (advance (len / 8) g))) =
        (List.range (len % 8)).map (fun i => fillCell a g (8 * (len / 8) + i)) := by
      refine List.map_congr_left fun j hj => ?_
      have hj8 : j < 8 := (List.mem_range.1 hj).trans (Nat.mod_lt _ (by decide))
      have h1 : (8 * (len / 8) + j) / 8 = len / 8 := by omega
      have h2 : (8 * (len / 8) + j) % 8 = j := by omega
      simp only [fillCell, h1, h2, rawWord, advance_succ_last, Nat.add_assoc]
    simp only [h0, if_false, nextWord, hw, hd, advance_succ_last]
    refine Prod.ext ?_ rfl
    show _ = (List.range len).map (fillCell a g)
    conv_rhs => rw [hlen, List.range_add, List.map_append, List.map_map]
    rfl

/-- The addresses a fill writes, in the order of the writes (R47). -/
theorem fillRun_addresses (a len : Nat) (g : Gen) : (fillRun a len g).1.map Prod.fst = (List.range len).map (a + ·) := by
  rw [fillRun_eq, List.map_map]
  rfl

/-- Every byte write of a fill goes into its region. -/
theorem mem_fillRun {a len : Nat} {g : Gen} {c : Host.Cell} (h : c ∈ (fillRun a len g).1) :
    a ≤ c.1 ∧ c.1 < a + len := by
  rw [fillRun_eq] at h
  obtain ⟨i, hi, rfl⟩ := List.mem_map.1 h
  have := List.mem_range.1 hi
  simp only [fillCell]
  omega

/-- Memory after the first `k` byte writes of a fill: those bytes of the region, and elsewhere what was there before. -/
theorem memRead_fillRun_take (m : List Host.Cell) {a k len : Nat} (g : Gen) (b : Nat) (hk : k ≤ len) :
    memRead (memWriteAll m ((fillRun a len g).1.take k)) b =
      if a ≤ b ∧ b < a + k then some (wordByte (rawWord g ((b - a) / 8 + 1)) ((b - a) % 8)) else memRead m b := by
  rw [fillRun_eq, ← List.map_take, List.take_range, Nat.min_eq_left hk]
  split
  · rename_i h
    have hb : (fillCell a g (b - a)).1 = b := by simp only [fillCell]; omega
    have hm : fillCell a g (b - a) ∈ (List.range k).map (fillCell a g) :=
      List.mem_map_of_mem (List.mem_range.2 (by omega))
    have hn : (((List.range k).map (fillCell a g)).map Prod.fst).Nodup := by
      rw [List.map_map]
      refine List.Nodup.map_on (fun x _ y _ hxy => ?_) List.nodup_range
      simp only [Function.comp, fillCell] at hxy
      omega
    have h1 := memRead_memWriteAll_of_mem (m := m) hn hm
    rw [hb] at h1
    exact h1
  · refine memRead_memWriteAll_of_notMem _ _ fun c hc => ?_
    obtain ⟨i, hi, rfl⟩ := List.mem_map.1 hc
    have := List.mem_range.1 hi
    simp only [fillCell]
    omega

/-- Memory after a whole fill. -/
theorem memRead_fillRun (m : List Host.Cell) (a len : Nat) (g : Gen) (b : Nat) :
    memRead (memWriteAll m (fillRun a len g).1) b =
      if a ≤ b ∧ b < a + len then some (wordByte (rawWord g ((b - a) / 8 + 1)) ((b - a) % 8)) else memRead m b := by
  have h := memRead_fillRun_take m (a := a) (len := len) g b (Nat.le_refl len)
  rwa [List.take_of_length_le (by rw [fillRun_eq]; simp)] at h

/-- The region of a fill that does not wrap lies in the address space (R158). -/
theorem bufWraps_eq_false_iff (a len : Word) : bufWraps a len = false ↔ a.toNat + len.toNat ≤ 2 ^ 64 := by
  simp [bufWraps]

end Sys2Proof.Machine
end

