-- ==== Sys2Proof/Machine/Assembler.lean ====
section
/-! DEFINITION. The assembler's text (30_encoding.md R69, R70), one line at a time, as a list of characters; and the `.word`
directive of 95_test_vectors.md section 9. It stands beside the machine: no step uses it. -/

namespace Sys2Proof.Machine

/-- What a line of text gives. -/
inductive AsmLine where
  /-- An empty line or a comment: no command. -/
  | blank
  /-- One command word. -/
  | word (w : CmdWord)
  /-- Not one of R69's forms. -/
  | malformed
  deriving DecidableEq, Repr

/-- The characters that may stand between the parts of a line. -/
def isBlankChar (c : Char) : Bool := c == ' ' || c == '\t'

/-- Leading and trailing blanks are dropped. -/
def trimBlanks (cs : List Char) : List Char :=
  (((cs.dropWhile isBlankChar).reverse).dropWhile isBlankChar).reverse

/-- A `;` starts a comment that runs to the end of the line (R69). -/
def stripComment (cs : List Char) : List Char := cs.takeWhile (fun c => c != ';')

/-- The parts between commas (R69). -/
def splitCommas : List Char → List (List Char)
  | [] => [[]]
  | c :: cs =>
    if c = ',' then [] :: splitCommas cs
    else
      match splitCommas cs with
      | [] => [[c]]
      | f :: fs => (c :: f) :: fs

/-- The value of a digit, decimal or hexadecimal. -/
def digitValue (c : Char) : Option Nat :=
  if 48 ≤ c.toNat ∧ c.toNat ≤ 57 then some (c.toNat - 48)
  else if 65 ≤ c.toNat ∧ c.toNat ≤ 70 then some (c.toNat - 55)
  else if 97 ≤ c.toNat ∧ c.toNat ≤ 102 then some (c.toNat - 87)
  else none

/-- The number a run of digits spells in the base, `acc` being what stands before it; underscores are ignored (R69). -/
def digitsValue (base : Nat) : List Char → Nat → Option Nat
  | [], acc => some acc
  | c :: cs, acc =>
    if c = '_' then digitsValue base cs acc
    else
      match digitValue c with
      | some d => if d < base then digitsValue base cs (acc * base + d) else none
      | none => none

/-- A number: it begins with a digit of its base. -/
def numberIn (base : Nat) : List Char → Option Nat
  | [] => none
  | c :: cs => if c = '_' then none else digitsValue base (c :: cs) 0

/-- An operand: decimal, or `0x` followed by hexadecimal digits (R69). -/
def operandNumber : List Char → Option Nat
  | '0' :: 'x' :: cs => numberIn 16 cs
  | cs => numberIn 10 cs

/-- The operand numbers of a line, in order. -/
def operandNumbers : List (List Char) → Option (List Nat)
  | [] => some []
  | p :: ps =>
    match operandNumber (trimBlanks p), operandNumbers ps with
    | some n, some ns => some (n :: ns)
    | _, _ => none

/-- The word of a command whose operands fit their fields (R61, R62). -/
def assembleCommand (ns : List Nat) (i : Instr) : AsmLine :=
  if ns.all operandFits && i.wellFormed then .word (encode i) else .malformed

/-- R69's nine forms, by mnemonic and operands, and `.word op, a, b`. 95_test_vectors.md section 9 gives `.word` for opcodes
that have no mnemonic; that it gives a word for every `op`, one with a mnemonic too, is the model's choice (DESIGN CHOICE, log
entry 10). -/
def assembleParts (mnemonic : List Char) (ns : List Nat) : AsmLine :=
  if mnemonic = ['L', 'D', 'S'] then
    match ns with
    | [x, y] => assembleCommand ns (.lds (BitVec.ofNat 64 x) (BitVec.ofNat 64 y))
    | _ => .malformed
  else if mnemonic = ['S', 'E', 'E', 'D'] then
    match ns with
    | [v] => assembleCommand ns (.seed (BitVec.ofNat 64 v))
    | _ => .malformed
  else if mnemonic = ['G', 'E', 'T', 'X'] then
    match ns with
    | [] => assembleCommand ns .getx
    | _ => .malformed
  else if mnemonic = ['G', 'E', 'T', 'Y'] then
    match ns with
    | [] => assembleCommand ns .gety
    | _ => .malformed
  else if mnemonic = ['S', 'T', 'A', 'T'] then
    match ns with
    | [] => assembleCommand ns .stat
    | _ => .malformed
  else if mnemonic = ['U', '6', '4'] then
    match ns with
    | [] => assembleCommand ns .u64
    | _ => .malformed
  else if mnemonic = ['B', 'T', 'W'] then
    match ns with
    | [lo, hi] => assembleCommand ns (.btw (BitVec.ofNat 64 lo) (BitVec.ofNat 64 hi))
    | _ => .malformed
  else if mnemonic = ['F', '6', '4'] then
    match ns with
    | [] => assembleCommand ns .f64
    | _ => .malformed
  else if mnemonic = ['F', 'I', 'L', 'L'] then
    match ns with
    | [a, len] => assembleCommand ns (.fill (BitVec.ofNat 64 a) (BitVec.ofNat 64 len))
    | _ => .malformed
  else if mnemonic = ['.', 'w', 'o', 'r', 'd'] then
    match ns with
    | [op, a, b] =>
      if opcodeFits op && operandFits a && operandFits b then
        .word (packFields (BitVec.ofNat 8 op) (BitVec.ofNat 64 a) (BitVec.ofNat 64 b))
      else .malformed
    | _ => .malformed
  else .malformed

/-- The assembler, one line (R69). -/
def assembleLine (line : List Char) : AsmLine :=
  let body := trimBlanks (stripComment line)
  if body = [] then .blank
  else
    let mnemonic := body.takeWhile (fun c => !isBlankChar c)
    let rest := trimBlanks (body.dropWhile (fun c => !isBlankChar c))
    match (if rest = [] then some [] else operandNumbers (splitCommas rest)) with
    | some ns => assembleParts mnemonic ns
    | none => .malformed

/-- A hexadecimal digit. -/
def hexDigit (n : Nat) : Char := Char.ofNat (if n < 10 then 48 + n else 55 + n)

/-- The last `k` hexadecimal digits of a number, most significant first. -/
def hexDigits : Nat → Nat → List Char
  | 0, _ => []
  | k + 1, n => hexDigits k (n / 16) ++ [hexDigit (n % 16)]

/-- An operand as text: `0x` and 16 hexadecimal digits (R61, R69). -/
def printOperand (v : Word) : List Char := '0' :: 'x' :: hexDigits 16 v.toNat

/-- A command in R69's form. -/
def printInstr : Instr → List Char
  | .lds x y => ['L', 'D', 'S', ' '] ++ printOperand x ++ [',', ' '] ++ printOperand y
  | .seed v => ['S', 'E', 'E', 'D', ' '] ++ printOperand v
  | .getx => ['G', 'E', 'T', 'X']
  | .gety => ['G', 'E', 'T', 'Y']
  | .stat => ['S', 'T', 'A', 'T']
  | .u64 => ['U', '6', '4']
  | .btw lo hi => ['B', 'T', 'W', ' '] ++ printOperand lo ++ [',', ' '] ++ printOperand hi
  | .f64 => ['F', '6', '4']
  | .fill a len => ['F', 'I', 'L', 'L', ' '] ++ printOperand a ++ [',', ' '] ++ printOperand len

end Sys2Proof.Machine
end

