-- ==== Sys2Proof/Safety.lean ====
section
/-! DEFINITION. What claims are stated in: the invariant of R21, what the host can observe (R201), which inputs are resets,
which draw the sampler accepts (R128), and the number a double-precision pattern stands for (R142). -/

namespace Sys2Proof.Machine

/-- The invariant every step keeps: `SEEDED = 1` implies `(X, Y) ≠ (0, 0)` (R21), and memory is in its canonical form. -/
def State.Inv (s : State) : Prop := (s.seeded = true → s.pair ≠ (0, 0)) ∧ memWf s.mem = true

/-- Two states the host cannot tell apart: everything is equal but `X` and `Y`, and these too once `SEEDED = 1`
(R24, R201). -/
def SameToHost (s t : State) : Prop :=
  s.seeded = t.seeded ∧ (s.seeded = true → s.pair = t.pair) ∧ s.mem = t.mem ∧ s.backed = t.backed ∧
    s.inputs = t.inputs ∧ s.responses = t.responses ∧ s.freeCount = t.freeCount

/-- Two states equal in everything but the contents of the data memory. -/
def SameButMemory (s t : State) : Prop := { s with mem := t.mem } = t

/-- Two outcomes of the same kind whose next states, if any, are related by `R`, and whose reasons are equal. -/
def OutcomesAgree (R : State → State → Prop) : Host.Outcome State Fault Refusal → Host.Outcome State Fault Refusal → Prop
  | .next s, .next t => R s t
  | .fault p, .fault q => p = q
  | .refused p, .refused q => p = q
  | _, _ => False

/-- The input makes the block take reset (R190, R191). -/
def Input.isReset : Input → Bool
  | .command _ => false
  | .reset => true
  | .resetDuring _ => true

/-- The `k`-th draw after `g` is the first that `BTW lo, hi` accepts (R124, R128), for `lo ≤ hi` and the exact span
`n = hi - lo + 1`: its `frac`, `r_k n mod 2^64`, is not below `t = 2^64 mod n`, and that of every earlier draw is. For the
full range `n` is `2^64` and the first draw is accepted (R123). -/
def FirstAccepted (lo hi : Word) (g : Gen) (k : Nat) : Prop :=
  let n := hi.toNat - lo.toNat + 1
  1 ≤ k ∧ (∀ j, 1 ≤ j → j < k → (rawWord g j).toNat * n % 2 ^ 64 < 2 ^ 64 % n) ∧
    2 ^ 64 % n ≤ (rawWord g k).toNat * n % 2 ^ 64

/-- The number a double-precision pattern with exponent field 1 to 2046 stands for, and 0 for the all-zero pattern: bit 63 is the
sign, bits 62:52 the exponent field, bits 51:0 the fraction (R142, log entry 11). -/
def f64Value (v : Word) : Rat :=
  if v = 0 then 0
  else
    (if v.getLsbD 63 then -1 else 1) * (1 + ((v.toNat % 2 ^ 52 : Nat) : Rat) / 2 ^ 52) *
      (2 : Rat) ^ (((v.toNat / 2 ^ 52 % 2 ^ 11 : Nat) : Int) - 1023)

end Sys2Proof.Machine
end

