-- ==== Sys2Proof/Certificates/Slice0/Obligations.lean ====
section
/-! DEFINITION. What is claimed of the model, one proposition each; OBLIGATIONS.json lists them. The rules R<n> are those of spec/.
A next state is written out field by field: what a record update does not name is unchanged. -/

open Sys2Proof Sys2Proof.Machine

/-! Encoding and decoding (30_encoding.md). -/

/-- R61, R63, R69: decoding the word of a command gives the command, with every operand at every value. -/
def Obligations.DecodeOfEncode : Prop := ∀ i : Instr, decode (encode i) = .command i

/-- R65, R67: two words with the same `op` that agree on the operand fields that command takes decode alike, and so do any two
words with undefined opcodes; two words decode alike in no other case. -/
def Obligations.DecodeLooksAtUsedFieldsOnly : Prop :=
  ∀ w v : CmdWord, decode w = decode v ↔
    (opField w = opField v ∧ (opField w ∈ [0x01, 0x02, 0x11, 0x13] → aField w = aField v) ∧
        (opField w ∈ [0x01, 0x11, 0x13] → bField w = bField v)) ∨
      (opField w ∉ [0x01, 0x02, 0x03, 0x04, 0x05, 0x10, 0x11, 0x12, 0x13] ∧
        opField v ∉ [0x01, 0x02, 0x03, 0x04, 0x05, 0x10, 0x11, 0x12, 0x13])

/-- R64, R172: the undefined opcodes, and what a word with one does: `ILLEGAL`, value 0, nothing else, whatever the state and
the operand fields. -/
def Obligations.UndefinedOpcodesAnswerIllegal : Prop :=
  ∀ (w : CmdWord) (s : State) (rest : List Input), s.inputs = .command w :: rest →
    ((opField w = 0x00 ∨ (0x06 ≤ opField w ∧ opField w ≤ 0x0F) ∨ 0x14 ≤ opField w) ↔ decode w = .illegal) ∧
      (decode w = .illegal →
        step s = .next { s with inputs := rest, responses := s.responses ++ [⟨.illegal, 0⟩] })

/-- A sanity check: command words printed in the spec, and one word per command written out from R63, decode to their
commands. -/
def Obligations.SpecWordsDecode : Prop :=
  decode 0x01_0000000000000001_0000000000000000 = .command (.lds 1 0) ∧
    decode 0x02_000000000000002A_FFFFFFFFFFFFFFFF = .command (.seed 0x2A) ∧
    decode 0x03_0000000000000000_0000000000000000 = .command .getx ∧
    decode 0x04_0000000000000000_0000000000000000 = .command .gety ∧
    decode 0x05_0000000000000000_0000000000000000 = .command .stat ∧
    decode 0x10_DEADBEEFDEADBEEF_0123456789ABCDEF = .command .u64 ∧
    decode 0x11_0000000000000001_0000000000000006 = .command (.btw 1 6) ∧
    decode 0x12_0000000000000000_0000000000000000 = .command .f64 ∧
    decode 0x13_0000000000001000_000000000000000B = .command (.fill 0x1000 11) ∧
    decode 0x00_0000000000000000_0000000000000000 = .illegal

/-- R66, R171: the status is in bits 71:64 and the value in bits 63:0 of the response word; the six statuses have R171's codes. There
is no seventh, so that no reserved code is ever produced. -/
def Obligations.ResponseWordLayout : Prop :=
  (∀ r : Response, (rspWord r).extractLsb' 64 8 = statusCode r.status ∧ (rspWord r).extractLsb' 0 64 = r.value ∧
      statusCode r.status ≤ 0x05) ∧
    statusCode .ok = 0x00 ∧ statusCode .illegal = 0x01 ∧ statusCode .unseeded = 0x02 ∧ statusCode .range = 0x03 ∧
    statusCode .zeroState = 0x04 ∧ statusCode .bufWrap = 0x05

/-- R69: the assembler reads back what is printed in its own form. -/
def Obligations.AssembleOfPrint : Prop := ∀ i : Instr, assembleLine (printInstr i) = .word (encode i)

/-! The step (00_scope.md R10, 70_reset_and_hazards.md). -/

/-- R10, R25, R60: a step on a command word that decodes to a command is that command, once the block has accepted the
word. -/
def Obligations.StepRunsDecodedCommand : Prop :=
  ∀ (s : State) (w : CmdWord) (rest : List Input) (i : Instr), s.inputs = .command w :: rest → decode w = .command i →
    step s = exec i { s with inputs := rest }

/-- R188: with nothing presented the block holds its state and does nothing. -/
def Obligations.IdleStepChangesNothing : Prop := ∀ s : State, s.inputs = [] → step s = .next s

/-- R190: reset between commands leaves `SEEDED = 0` and does not touch memory. That it leaves the responses issued before it and
what the host presents after it alone is the model's choice (DESIGN CHOICE, log entry 5), and so are the words `X` and `Y` hold
then (log entry 1), of which nothing is said. -/
def Obligations.ResetStep : Prop :=
  ∀ (s : State) (rest : List Input), s.inputs = .reset :: rest →
    ∃ t, step s = .next t ∧ t.seeded = false ∧ statusWord t = 0 ∧ t.mem = s.mem ∧ t.backed = s.backed ∧
      t.responses = s.responses ∧ t.inputs = rest

/-- R191: reset while a command is in progress abandons it: no response, `SEEDED = 0`; memory is unchanged but for some of the
first bytes of a `FILL` that was under way. How many is free (log entry 6). That the responses issued before and the inputs after
are left alone is the model's choice (DESIGN CHOICE, log entry 5). -/
def Obligations.ResetInFlight : Prop :=
  ∀ (s : State) (w : CmdWord) (rest : List Input), s.inputs = .resetDuring w :: rest →
    (∀ a len, decode w = .command (.fill a len) → s.seeded = true → a.toNat + len.toNat ≤ 2 ^ 64 →
      regionBacked s.backed a.toNat len.toNat = true) →
    ∃ t, step s = .next t ∧ t.seeded = false ∧ t.backed = s.backed ∧ t.responses = s.responses ∧ t.inputs = rest ∧
      ((∀ a len, decode w ≠ .command (.fill a len)) → t.mem = s.mem) ∧
      ∀ a len, decode w = .command (.fill a len) →
        ∃ k ≤ len.toNat, ∀ b, memRead t.mem b =
          if s.seeded = true ∧ a.toNat + len.toNat ≤ 2 ^ 64 ∧ a.toNat ≤ b ∧ b < a.toNat + k then
            some (wordByte (rawWord s.pair ((b - a.toNat) / 8 + 1)) ((b - a.toNat) % 8))
          else memRead s.mem b

/-- R30, R190, R192: after reset `SEEDED = 0`, the status register reads zero, and the commands that need a state answer `UNSEEDED`
and change nothing else. That the model's two lists on the host's side, the inputs and the responses, are empty in `State.reset`
is the model's choice (DESIGN CHOICE, log entry 5). -/
def Obligations.ResetLeavesUnseeded : Prop :=
  State.reset.seeded = false ∧ statusWord State.reset = 0 ∧ State.reset.responses = [] ∧ State.reset.inputs = [] ∧
    ∀ i : Instr, (i = .getx ∨ i = .gety ∨ i = .u64 ∨ i = .f64 ∨ (∃ lo hi, i = .btw lo hi) ∨ ∃ a len, i = .fill a len) →
      exec i State.reset = .next { State.reset with responses := [⟨.unseeded, 0⟩] }

/-- A step takes what the host presents first and nothing else of it: a command word by R25 and R60; that a reset step leaves the
later inputs too is the model's choice (DESIGN CHOICE, log entry 5). No step changes the platform's map of backed addresses: it is
a parameter (R6), and that `State.backed` holds it and keeps it is the model's choice (DESIGN CHOICE, log entry 3). -/
def Obligations.StepTakesOneInput : Prop :=
  ∀ s t : State, step s = .next t → t.inputs = s.inputs.tail ∧ t.backed = s.backed

/-! Whole-machine rules. -/

/-- R21, and the canonical form of memory, at reset. -/
def Obligations.ResetMeetsInvariant : Prop := State.reset.Inv

/-- R21: whenever `SEEDED = 1`, `(X, Y) ≠ (0, 0)`; every step keeps it. -/
def Obligations.StepKeepsNonZeroState : Prop :=
  ∀ s t : State, (s.seeded = true → s.pair ≠ (0, 0)) → step s = .next t → (t.seeded = true → t.pair ≠ (0, 0))

/-- The model's memory keeps its canonical form in every step (log entry 2). -/
def Obligations.StepKeepsMemoryForm : Prop :=
  ∀ s t : State, memWf s.mem = true → step s = .next t → memWf t.mem = true

/-- R23: only reset clears `SEEDED`, and only a successful `SEED` or `LDS` sets it. -/
def Obligations.SeededChangesOnlyBySeedingOrReset : Prop :=
  ∀ s t : State, step s = .next t →
    (s.seeded = true → t.seeded = false → ∃ inp rest, s.inputs = inp :: rest ∧ inp.isReset = true) ∧
      (s.seeded = false → t.seeded = true → ∃ w rest, s.inputs = .command w :: rest ∧
        ((∃ v, decode w = .command (.seed v)) ∨ ∃ x y, (x, y) ≠ ((0, 0) : Gen) ∧ decode w = .command (.lds x y)))

/-- R170, R178: every command word that is executed, the undefined ones too, issues exactly one response; after one that is not
`OK`, whose value is 0, everything else is exactly as before. -/
def Obligations.FailingCommandChangesNothing : Prop :=
  ∀ (w : CmdWord) (s t : State), runWord w s = .next t →
    ∃ r : Response, t.responses = s.responses ++ [r] ∧
      (r.status ≠ .ok → r.value = 0 ∧ t = { s with responses := s.responses ++ [r] })

/-- R24: while `SEEDED = 0` no result depends on `X` and `Y`: two machines the host cannot tell apart stay so in every
step. -/
def Obligations.UnseededRegistersAreInvisible : Prop :=
  ∀ s t : State, SameToHost s t → OutcomesAgree SameToHost (step s) (step t)

/-- R44: the block never reads memory: from two machines that differ in memory only, a step gives machines that differ in memory
only, and every byte is either written alike in both or left alone in both. On a reset step, that the two next states hold
equal `X` and `Y` is the model's choice (DESIGN CHOICE, log entry 1: equal counts give equal free words), and where reset strikes
during a `FILL`, so is that both stop after equally many bytes (DESIGN CHOICE, log entry 6). -/
def Obligations.BlockNeverReadsMemory : Prop :=
  ∀ s t : State, SameButMemory s t →
    OutcomesAgree (fun s' t' => SameButMemory s' t' ∧ ∀ b, memRead s'.mem b = memRead t'.mem b ∨
      (memRead s'.mem b = memRead s.mem b ∧ memRead t'.mem b = memRead t.mem b)) (step s) (step t)

/-- R177: the order of the checks: `ILLEGAL` whatever the state; then `UNSEEDED`, whatever the operands; then the operand check;
`LDS` has only `ZERO_STATE`, `SEED` and `STAT` have none. -/
def Obligations.OrderOfChecks : Prop :=
  (∀ (w : CmdWord) (s : State), decode w = .illegal →
      runWord w s = .next { s with responses := s.responses ++ [⟨.illegal, 0⟩] }) ∧
    (∀ s : State, s.seeded = false → ∀ i : Instr,
      (i = .getx ∨ i = .gety ∨ i = .u64 ∨ i = .f64 ∨ (∃ lo hi, i = .btw lo hi) ∨ ∃ a len, i = .fill a len) →
        exec i s = .next { s with responses := s.responses ++ [⟨.unseeded, 0⟩] }) ∧
    (∀ s : State, s.seeded = true → ∀ lo hi : Word, hi < lo →
        exec (.btw lo hi) s = .next { s with responses := s.responses ++ [⟨.range, 0⟩] }) ∧
    (∀ s : State, s.seeded = true → ∀ a len : Word, 2 ^ 64 < a.toNat + len.toNat →
        exec (.fill a len) s = .next { s with responses := s.responses ++ [⟨.bufWrap, 0⟩] }) ∧
    ∀ (s : State) (x y v : Word),
      exec (.lds 0 0) s = .next { s with responses := s.responses ++ [⟨.zeroState, 0⟩] } ∧
        ((x, y) ≠ ((0, 0) : Gen) → exec (.lds x y) s =
          .next { s with x := x, y := y, seeded := true, responses := s.responses ++ [⟨.ok, 0⟩] }) ∧
        (∃ t, exec (.seed v) s = .next t ∧ t.responses = s.responses ++ [⟨.ok, 0⟩]) ∧
        exec .stat s = .next { s with responses := s.responses ++ [⟨.ok, statusWord s⟩] }

/-! Frames (10_state.md R31). -/

/-- R31: `GETX`, `GETY` and `STAT` change nothing but the responses. -/
def Obligations.ReadCommandsFrame : Prop :=
  ∀ (i : Instr) (s t : State), (i = .getx ∨ i = .gety ∨ i = .stat) → exec i s = .next t →
    t = { s with responses := t.responses } ∧ ∀ a, memRead t.mem a = memRead s.mem a

/-- R31: `LDS` and `SEED` change nothing but `X`, `Y`, `SEEDED` and the responses; `U64`, `BTW` and `F64` nothing but `X`, `Y` and
the responses; every byte of memory is unchanged. -/
def Obligations.RegisterCommandsFrame : Prop :=
  ∀ (i : Instr) (s t : State), exec i s = .next t →
    (((∃ x y, i = .lds x y) ∨ ∃ v, i = .seed v) →
      t = { s with x := t.x, y := t.y, seeded := t.seeded, responses := t.responses } ∧
        ∀ a, memRead t.mem a = memRead s.mem a) ∧
    ((i = .u64 ∨ i = .f64 ∨ ∃ lo hi, i = .btw lo hi) →
      t = { s with x := t.x, y := t.y, responses := t.responses } ∧ ∀ a, memRead t.mem a = memRead s.mem a)

/-- R31, R53: `FILL` changes nothing but `X`, `Y`, the responses, and the bytes `a` to `a + len - 1`. -/
def Obligations.FillFrame : Prop :=
  ∀ (a len : Word) (s t : State), exec (.fill a len) s = .next t →
    t = { s with x := t.x, y := t.y, mem := t.mem, responses := t.responses } ∧
      ∀ b, (b < a.toNat ∨ a.toNat + len.toNat ≤ b) → memRead t.mem b = memRead s.mem b

/-- R198: how many draws each command makes that answers `OK`: `BTW` up to the first draw it accepts (R128); `LDS` and `SEED` draw
nothing, they replace the state. -/
def Obligations.DrawCounts : Prop :=
  ∀ (i : Instr) (s t : State) (v : Word), exec i s = .next t → t.responses = s.responses ++ [⟨.ok, v⟩] →
    ((i = .getx ∨ i = .gety ∨ i = .stat) → t.pair = s.pair) ∧
      ((i = .u64 ∨ i = .f64) → t.pair = advance 1 s.pair) ∧
      (∀ lo hi, i = .btw lo hi →
        (∃ k, FirstAccepted lo hi s.pair k ∧ t.pair = advance k s.pair) ∧ (lo = hi → t.pair = advance 1 s.pair)) ∧
      (∀ a len, i = .fill a len → t.pair = advance ((len.toNat + 7) / 8) s.pair) ∧
      (∀ x y, i = .lds x y → t.pair = (x, y)) ∧
      (∀ u, i = .seed u → t.pair = seedPair Config.seedExpand Config.seedFallback u)

/-! The engine and `U64` (40_transition_output.md). -/

/-- R80, R81, R82, R90: `U64` writes `F(X, Y)` to `X` and `Y` and answers `G` of the new pair; without a state it answers
`UNSEEDED`. -/
def Obligations.U64DrawsOneWord : Prop :=
  ∀ s : State,
    (s.seeded = true →
      let x' := s.y ^^^ (s.y >>> 19)
      let y' := s.x ^^^ s.y.rotateRight 7
      let lo := BitVec.ofNat 64 (x'.toNat * x'.toNat % 2 ^ 64)
      let hi := BitVec.ofNat 64 (x'.toNat * x'.toNat / 2 ^ 64)
      exec .u64 s = .next { s with x := x', y := y', responses := s.responses ++ [⟨.ok, y' + (lo ^^^ hi)⟩] }) ∧
    (s.seeded = false → exec .u64 s = .next { s with responses := s.responses ++ [⟨.unseeded, 0⟩] })

/-- R83: `F` is a bijection on the pairs, with this inverse. -/
def Obligations.TransitionHasInverse : Prop :=
  ∀ g : Gen, transitionInv (transition g) = g ∧ transition (transitionInv g) = g

/-- R84: no pair but `(0, 0)` goes to `(0, 0)`, and `(0, 0)` is the unique fixed point of `F`. -/
def Obligations.ZeroPairIsIsolated : Prop :=
  ∀ g : Gen, (transition g = (0, 0) ↔ g = (0, 0)) ∧ (transition g = g ↔ g = (0, 0))

/-- R85: `F` is linear over the field of two elements and has full period: from any pair but `(0, 0)` it comes to all of them, and
back to the start after exactly `2^128 - 1` steps. -/
def Obligations.FullPeriod : Prop :=
  (∀ g h : Gen, transition (g.1 ^^^ h.1, g.2 ^^^ h.2) =
      ((transition g).1 ^^^ (transition h).1, (transition g).2 ^^^ (transition h).2)) ∧
    ∀ g : Gen, g ≠ (0, 0) →
      advance (2 ^ 128 - 1) g = g ∧ (∀ k, 0 < k → k < 2 ^ 128 - 1 → advance k g ≠ g) ∧
        ∀ h : Gen, h ≠ (0, 0) → ∃ k < 2 ^ 128 - 1, advance k g = h

/-- R86: over one full cycle every word but 0 is drawn `2^64` times, and 0 is drawn `2^64 - 1` times. -/
def Obligations.Equidistribution : Prop :=
  ∀ (g : Gen) (w : Word), g ≠ (0, 0) →
    Set.ncard { i : Nat | 1 ≤ i ∧ i ≤ 2 ^ 128 - 1 ∧ rawWord g i = w } = if w = 0 then 2 ^ 64 - 1 else 2 ^ 64

/-- R87: the state before a draw is got back from the drawn word and the new `X`. -/
def Obligations.OutputIsReversible : Prop :=
  ∀ g : Gen, (advance 1 g).2 = rawWord g 1 - foldSquare (advance 1 g).1 ∧
    transitionInv ((advance 1 g).1, rawWord g 1 - foldSquare (advance 1 g).1) = g

/-- R89: the square from four partial products of 32 bits. -/
def Obligations.PartialProducts : Prop :=
  ∀ x : Word, (mulw x x).toNat =
    (x.toNat / 2 ^ 32) * (x.toNat / 2 ^ 32) * 2 ^ 64 + 2 * ((x.toNat / 2 ^ 32) * (x.toNat % 2 ^ 32)) * 2 ^ 32 +
      (x.toNat % 2 ^ 32) * (x.toNat % 2 ^ 32)

/-- R91: `k` consecutive `U64` commands answer `G(F^i(s))` for `i = 1` to `k` and leave `F^k(s)`. -/
def Obligations.SequenceLaw : Prop :=
  ∀ (k : Nat) (s : State) (rest : List Input), s.seeded = true →
    s.inputs = List.replicate k (.command (encode .u64)) ++ rest →
      core.run k s = .next { s with
        x := (advance k s.pair).1, y := (advance k s.pair).2, inputs := rest,
        responses := s.responses ++ (List.range k).map (fun i => ⟨.ok, rawWord s.pair (i + 1)⟩) }

/-! Seeding and state access (41_seed_and_state.md). -/

/-- R100, R102: `SEED` never fails and establishes the expanded pair, or the fallback where that is `(0, 0)`; the pair established is
never `(0, 0)`. It holds for every `SEED_EXPAND` and `SEED_FALLBACK` R6 allows (log entry 4). -/
def Obligations.SeedEstablishesState : Prop :=
  ∀ (v : Word) (s : State),
    let p := if Config.seedExpand v = (0, 0) then Config.seedFallback else Config.seedExpand v
    exec (.seed v) s =
        .next { s with x := p.1, y := p.2, seeded := true, responses := s.responses ++ [⟨.ok, 0⟩] } ∧ p ≠ (0, 0)

/-- R104, R175: `LDS` loads any pair but `(0, 0)`; on `(0, 0)` it answers `ZERO_STATE` and an earlier state stays. -/
def Obligations.LdsLoadsNonZeroPair : Prop :=
  ∀ (x y : Word) (s : State),
    ((x, y) ≠ ((0, 0) : Gen) → exec (.lds x y) s =
        .next { s with x := x, y := y, seeded := true, responses := s.responses ++ [⟨.ok, 0⟩] }) ∧
      exec (.lds 0 0) s = .next { s with responses := s.responses ++ [⟨.zeroState, 0⟩] }

/-- R105, R106: `GETX` answers `X` and `GETY` answers `Y`, and nothing else happens; without a state both answer `UNSEEDED`. -/
def Obligations.GetReadsRegister : Prop :=
  ∀ s : State,
    (s.seeded = true → exec .getx s = .next { s with responses := s.responses ++ [⟨.ok, s.x⟩] } ∧
        exec .gety s = .next { s with responses := s.responses ++ [⟨.ok, s.y⟩] }) ∧
      (s.seeded = false → exec .getx s = .next { s with responses := s.responses ++ [⟨.unseeded, 0⟩] } ∧
        exec .gety s = .next { s with responses := s.responses ++ [⟨.unseeded, 0⟩] })

/-- R107: `STAT` works in every state and answers `SEEDED` in bit 0 and zero in bits 63:1. -/
def Obligations.StatReadsStatus : Prop :=
  ∀ s : State, ∃ v : Word, exec .stat s = .next { s with responses := s.responses ++ [⟨.ok, v⟩] } ∧
    v.getLsbD 0 = s.seeded ∧ ∀ i, 1 ≤ i → v.getLsbD i = false

/-- R108, for two instances that differ at first in `X`, `Y` and `SEEDED` only (memory, earlier responses and the count of free
values are equal): seeded alike, then given the same, they go the same way. R108 speaks of commands. The later inputs here may
hold resets as well: that the two then hold equal `X` and `Y` (DESIGN CHOICE, log entry 1), that a `FILL` cut short stops after
equally many bytes in both (DESIGN CHOICE, log entry 6), and that the inputs after a reset and the responses before it stay
(DESIGN CHOICE, log entry 5) is the model's choice, since the two count their free values alike. -/
def Obligations.SeedingIsDeterministic : Prop :=
  ∀ (s t : State) (i : Instr) (rest : List Input) (n : Nat),
    ((∃ v, i = .seed v) ∨ ∃ x y, (x, y) ≠ ((0, 0) : Gen) ∧ i = .lds x y) →
    s.inputs = .command (encode i) :: rest → t = { s with x := t.x, y := t.y, seeded := t.seeded } →
      core.run (n + 1) s = core.run (n + 1) t

/-- R103: the reference mixer is a bijection of the words, and the reference expansion never gives `(0, 0)`. -/
def Obligations.ReferenceSeedingIsNeverZero : Prop :=
  Function.Bijective seedMix ∧ ∀ v : Word, seedExpandRef v ≠ (0, 0)

/-! The integer-range sampler `BTW` (42_bounded_integer.md). -/

/-- R122, R123: `span` is 0 exactly for the full range, and then one raw word is answered unchanged. -/
def Obligations.BtwFullRange : Prop :=
  (∀ lo hi : Word, lo ≤ hi → (spanOf lo hi = 0 ↔ lo = 0 ∧ hi = 0xFFFFFFFFFFFFFFFF)) ∧
    ∀ s : State, s.seeded = true →
      exec (.btw 0 0xFFFFFFFFFFFFFFFF) s = .next { s with
        x := (advance 1 s.pair).1, y := (advance 1 s.pair).2,
        responses := s.responses ++ [⟨.ok, rawWord s.pair 1⟩] }

/-- R125: with equal bounds exactly one raw word is consumed and the value is the bound. -/
def Obligations.BtwEqualBounds : Prop :=
  ∀ (v : Word) (s : State), s.seeded = true →
    exec (.btw v v) s = .next { s with
      x := (advance 1 s.pair).1, y := (advance 1 s.pair).2, responses := s.responses ++ [⟨.ok, v⟩] }

/-- R124, R128: below the full range, `BTW` makes `k` draws, `k` the first whose `frac` is not below `t = 2^64 mod span`, and
answers `lo + hi64(r_k * span)`. There is no bound on `k`. -/
def Obligations.BtwClosedForm : Prop :=
  ∀ (lo hi : Word) (s : State) (k : Nat), s.seeded = true → lo ≤ hi → hi.toNat - lo.toNat + 1 < 2 ^ 64 → 1 ≤ k →
    (∀ j, 1 ≤ j → j < k → (rawWord s.pair j).toNat * (hi.toNat - lo.toNat + 1) % 2 ^ 64 <
      2 ^ 64 % (hi.toNat - lo.toNat + 1)) →
    2 ^ 64 % (hi.toNat - lo.toNat + 1) ≤ (rawWord s.pair k).toNat * (hi.toNat - lo.toNat + 1) % 2 ^ 64 →
      exec (.btw lo hi) s = .next { s with
        x := (advance k s.pair).1, y := (advance k s.pair).2,
        responses := s.responses ++
          [⟨.ok, BitVec.ofNat 64 (lo.toNat + (rawWord s.pair k).toNat * (hi.toNat - lo.toNat + 1) / 2 ^ 64)⟩] }

/-- The model's one fault is exact: `BTW` is stuck only if the loop of R124 never ends, every draw there is being rejected. -/
def Obligations.BtwStuckOnlyIfEndless : Prop :=
  ∀ (lo hi : Word) (s : State), exec (.btw lo hi) s = .fault .samplerNeverAccepts ↔
    s.seeded = true ∧ lo ≤ hi ∧ spanOf lo hi ≠ 0 ∧
      ∀ k, 1 ≤ k → lo64 (mulw (rawWord s.pair k) (spanOf lo hi)) < threshold (spanOf lo hi)

/-- R126: the value answered lies in `[lo, hi]`. -/
def Obligations.BtwValueInRange : Prop :=
  ∀ (lo hi : Word) (s t : State), s.seeded = true → lo ≤ hi → exec (.btw lo hi) s = .next t →
    ∃ v, t.responses = s.responses ++ [⟨.ok, v⟩] ∧ lo ≤ v ∧ v ≤ hi

/-- R127: for each value the number of accepted raw words that give it is the same, `(2^64 - t) / span`. -/
def Obligations.BtwIsUnbiased : Prop :=
  ∀ span v : Word, v < span →
    Set.ncard { r : Word | ¬ lo64 (mulw r span) < threshold span ∧ hi64 (mulw r span) = v } =
      (2 ^ 64 - 2 ^ 64 % span.toNat) / span.toNat

/-- R128: `t = 2^64 mod span` is below `2^63`, and 0, so that nothing is ever rejected, exactly for a power of two. -/
def Obligations.RejectionThreshold : Prop :=
  ∀ span : Word, span ≠ 0 → (threshold span).toNat = 2 ^ 64 % span.toNat ∧ threshold span < span ∧
    (threshold span).toNat < 2 ^ 63 ∧ (threshold span = 0 ↔ ∃ e, span.toNat = 2 ^ e)

/-- R129: from a state established by `SEED` or `LDS` the loop always ends: every `BTW` with `lo ≤ hi` completes, with the first draw
that is accepted, which is among the first `2^128 - 1`, and the value `lo + floor(r_k span / 2^64)`. For the full range the exact
span is `2^64`, so that `k = 1` and the value is `r_1`. -/
def Obligations.BtwAlwaysEnds : Prop :=
  ∀ (lo hi : Word) (s : State), s.seeded = true → s.pair ≠ (0, 0) → lo ≤ hi →
    ∃ k, FirstAccepted lo hi s.pair k ∧ k ≤ 2 ^ 128 - 1 ∧ exec (.btw lo hi) s = .next { s with
      x := (advance k s.pair).1, y := (advance k s.pair).2,
      responses := s.responses ++
        [⟨.ok, BitVec.ofNat 64 (lo.toNat + (rawWord s.pair k).toNat * (hi.toNat - lo.toNat + 1) / 2 ^ 64)⟩] }

/-! The float quantizer `F64` (43_float.md). -/

/-- R144: `F64` makes one draw and answers the pattern of its top 53 bits; without a state it answers `UNSEEDED`. -/
def Obligations.F64DrawsOneWord : Prop :=
  ∀ s : State,
    (s.seeded = true → exec .f64 s = .next { s with
      x := (advance 1 s.pair).1, y := (advance 1 s.pair).2,
      responses := s.responses ++ [⟨.ok, f64Bits (rawWord s.pair 1 >>> 11)⟩] }) ∧
    (s.seeded = false → exec .f64 s = .next { s with responses := s.responses ++ [⟨.unseeded, 0⟩] })

/-- R141, R145: the number answered is exactly `k * 2^-53`, `k` the top 53 bits of the raw word, and lies in `[0, 1)`; its sign bit
is 0. How a pattern is read as a number is presumed (log entry 11, from R142). -/
def Obligations.QuantizerIsExact : Prop :=
  ∀ r : Word, f64Value (quantize r) = ((r.toNat / 2 ^ 11 : Nat) : Rat) / 2 ^ 53 ∧ 0 ≤ f64Value (quantize r) ∧
    f64Value (quantize r) < 1 ∧ (quantize r).getLsbD 63 = false

/-- R142: the pattern: zero for `k = 0`; else sign 0, exponent field `970 + e` with `e` the position of the most significant 1 bit of
`k`, and the normalised fraction with the leading 1 dropped. The layout is presumed (log entry 11). -/
def Obligations.QuantizerPattern : Prop :=
  ∀ k : Word, k.toNat < 2 ^ 53 →
    (k = 0 → f64Bits k = 0) ∧
      ∀ e, 2 ^ e ≤ k.toNat → k.toNat < 2 ^ (e + 1) →
        (f64Bits k).toNat = (970 + e) * 2 ^ 52 + (k.toNat * 2 ^ (52 - e) - 2 ^ 52) ∧
          970 + e ≤ 1022 ∧ k.toNat * 2 ^ (52 - e) - 2 ^ 52 < 2 ^ 52

/-- R146: each of the `2^53` values is answered for exactly `2^11` raw words. How a pattern is read as a number is presumed (log
entry 11, from R142). -/
def Obligations.QuantizerIsUniform : Prop :=
  ∀ k : Nat, k < 2 ^ 53 → Set.ncard { r : Word | f64Value (quantize r) = (k : Rat) / 2 ^ 53 } = 2 ^ 11

/-! The bulk-fill sequencer `FILL` (44_bulk_fill.md, 20_memory.md). -/

/-- R45, with R157 and R177: a `FILL` is refused exactly if it passes its two checks, `UNSEEDED` and `BUF_WRAP`, and its region holds
an unbacked address. -/
def Obligations.FillRefusesUnbacked : Prop :=
  ∀ (a len : Word) (s : State), exec (.fill a len) s = .refused .unbackedMemory ↔
    s.seeded = true ∧ a.toNat + len.toNat ≤ 2 ^ 64 ∧ ∃ i < len.toNat, isBacked s.backed (a.toNat + i) = false

/-- R53, R155, R157: the region holds the little-endian images of the raw words, cut to `len` bytes; `ceil(len / 8)` draws were made;
bytes outside the region and everything else are unchanged. -/
def Obligations.FillLaw : Prop :=
  ∀ (a len : Word) (s : State), s.seeded = true → a.toNat + len.toNat ≤ 2 ^ 64 →
    (∀ i < len.toNat, isBacked s.backed (a.toNat + i) = true) →
    ∃ t, exec (.fill a len) s = .next t ∧
      t = { s with
        x := (advance ((len.toNat + 7) / 8) s.pair).1, y := (advance ((len.toNat + 7) / 8) s.pair).2,
        mem := t.mem, responses := s.responses ++ [⟨.ok, 0⟩] } ∧
      (∀ i < len.toNat, memRead t.mem (a.toNat + i) =
        some (BitVec.ofNat 8 ((rawWord s.pair (i / 8 + 1)).toNat / 2 ^ (8 * (i % 8))))) ∧
      ∀ b, (b < a.toNat ∨ a.toNat + len.toNat ≤ b) → memRead t.mem b = memRead s.mem b

/-- R154: an empty `FILL` answers `OK`, at every address, and changes nothing else. -/
def Obligations.EmptyFill : Prop :=
  ∀ (a : Word) (s : State), s.seeded = true →
    exec (.fill a 0) s = .next { s with responses := s.responses ++ [⟨.ok, 0⟩] }

/-- R47: the byte writes of a `FILL` are issued in ascending address order, each address of the region exactly once. -/
def Obligations.FillWritesAscend : Prop :=
  ∀ (a len : Word) (s t : State), s.seeded = true → a.toNat + len.toNat ≤ 2 ^ 64 → exec (.fill a len) s = .next t →
    (fillRun a.toNat len.toNat s.pair).1.map Prod.fst = List.range' a.toNat len.toNat ∧
      t.mem = memWriteAll s.mem (fillRun a.toNat len.toNat s.pair).1

/-- R156: the address affects where the bytes go, never what they are. -/
def Obligations.FillBytesIgnoreAddress : Prop :=
  ∀ (a b len : Word) (s t u : State), s.seeded = true → a.toNat + len.toNat ≤ 2 ^ 64 → b.toNat + len.toNat ≤ 2 ^ 64 →
    exec (.fill a len) s = .next t → exec (.fill b len) s = .next u →
      t.pair = u.pair ∧ ∀ i < len.toNat, memRead t.mem (a.toNat + i) = memRead u.mem (b.toNat + i)

/-- R155, R197: splitting a fill at a multiple of 8 bytes changes neither the bytes nor the final state. -/
def Obligations.FillSplitsAtChunks : Prop :=
  ∀ (a b n m l : Word) (s t u v : State), s.seeded = true → n.toNat % 8 = 0 → l.toNat = n.toNat + m.toNat →
    b.toNat = a.toNat + n.toNat → a.toNat + l.toNat ≤ 2 ^ 64 →
    exec (.fill a n) s = .next t → exec (.fill b m) t = .next u → exec (.fill a l) s = .next v →
      u.pair = v.pair ∧ ∀ c, memRead u.mem c = memRead v.mem c

/-- R160: `FILL a, 8 n` writes the little-endian images of the values `n` consecutive `U64` commands answer from the same state, and
leaves the same final state. -/
def Obligations.FillEqualsU64s : Prop :=
  ∀ (n : Nat) (a len : Word) (s t u : State), s.seeded = true → len.toNat = 8 * n → a.toNat + len.toNat ≤ 2 ^ 64 →
    exec (.fill a len) s = .next t →
    core.run n { s with inputs := List.replicate n (.command (encode .u64)), responses := [] } = .next u →
      t.pair = u.pair ∧ u.responses.length = n ∧ ∀ i < n, ∃ v, u.responses[i]? = some ⟨.ok, v⟩ ∧
        ∀ j < 8, memRead t.mem (a.toNat + 8 * i + j) = some (wordByte v j)
end

