-- ==== Sys2Proof/Laws/PerInstr.lean ====
section
/-! SUPPORT. The encoding of each command as syntax: its word carries the opcode of R63 in `op`, and its operands, or zero where
the field is ignored, in `a` and `b` (R61, R69). -/

namespace Sys2Proof.Laws.Fields

/-- The three fields of the command's word are R63's. -/
def Statement (i : Instr) : Prop :=
  opField (encode i) = opcodeOf i ∧ aField (encode i) = aOperand i ∧ bField (encode i) = bOperand i

/-- A packed word's fields are what was packed (R61). -/
theorem fields_packFields (op : BitVec 8) (a b : Word) :
    opField (packFields op a b) = op ∧ aField (packFields op a b) = a ∧ bField (packFields op a b) = b := by
  refine ⟨?_, ?_, ?_⟩
  · change BitVec.extractLsb' 128 8 (op ++ a ++ b : BitVec (8 + 64 + 64)) = op
    refine BitVec.eq_of_getLsbD_eq fun i h => ?_
    rw [BitVec.getLsbD_extractLsb', BitVec.getLsbD_append, BitVec.getLsbD_append,
      if_neg (by omega), if_neg (by omega), show 128 + i - 64 - 64 = i by omega]
    simp [h]
  · change BitVec.extractLsb' 64 64 (op ++ a ++ b : BitVec (8 + 64 + 64)) = a
    refine BitVec.eq_of_getLsbD_eq fun i h => ?_
    rw [BitVec.getLsbD_extractLsb', BitVec.getLsbD_append, BitVec.getLsbD_append]
    simp [h]
  · change BitVec.extractLsb' 0 64 (op ++ a ++ b : BitVec (8 + 64 + 64)) = b
    refine BitVec.eq_of_getLsbD_eq fun i h => ?_
    rw [BitVec.getLsbD_extractLsb', BitVec.getLsbD_append, BitVec.getLsbD_append]
    simp [h]

theorem lds (x y : Word) : Statement (.lds x y) := fields_packFields _ _ _

theorem seed (v : Word) : Statement (.seed v) := fields_packFields _ _ _

theorem getx : Statement .getx := fields_packFields _ _ _

theorem gety : Statement .gety := fields_packFields _ _ _

theorem stat : Statement .stat := fields_packFields _ _ _

theorem u64 : Statement .u64 := fields_packFields _ _ _

theorem btw (lo hi : Word) : Statement (.btw lo hi) := fields_packFields _ _ _

theorem f64 : Statement .f64 := fields_packFields _ _ _

theorem fill (a len : Word) : Statement (.fill a len) := fields_packFields _ _ _

end Sys2Proof.Laws.Fields
end

