-- ==== Sys2Proof/Laws/Decode.lean ====
section
/-! SUPPORT. What the decoder answers (R63, R64, R67), once for all opcodes. -/

namespace Sys2Proof

/-- The command `op` selects, by cases (R63, R64). -/
inductive CommandOfCase (op : BitVec 8) (a b : Word) : Decoded → Prop
  | lds (h : op = 0x01) : CommandOfCase op a b (.command (.lds a b))
  | seed (h : op = 0x02) : CommandOfCase op a b (.command (.seed a))
  | getx (h : op = 0x03) : CommandOfCase op a b (.command .getx)
  | gety (h : op = 0x04) : CommandOfCase op a b (.command .gety)
  | stat (h : op = 0x05) : CommandOfCase op a b (.command .stat)
  | u64 (h : op = 0x10) : CommandOfCase op a b (.command .u64)
  | btw (h : op = 0x11) : CommandOfCase op a b (.command (.btw a b))
  | f64 (h : op = 0x12) : CommandOfCase op a b (.command .f64)
  | fill (h : op = 0x13) : CommandOfCase op a b (.command (.fill a b))
  | illegal (h : op ∉ ([0x01, 0x02, 0x03, 0x04, 0x05, 0x10, 0x11, 0x12, 0x13] : List (BitVec 8))) :
      CommandOfCase op a b .illegal

theorem commandOf_case (op : BitVec 8) (a b : Word) : CommandOfCase op a b (commandOf op a b) := by
  unfold commandOf
  by_cases h1 : op = 0x01
  · rw [if_pos h1]; exact .lds h1
  by_cases h2 : op = 0x02
  · rw [if_neg h1, if_pos h2]; exact .seed h2
  by_cases h3 : op = 0x03
  · rw [if_neg h1, if_neg h2, if_pos h3]; exact .getx h3
  by_cases h4 : op = 0x04
  · rw [if_neg h1, if_neg h2, if_neg h3, if_pos h4]; exact .gety h4
  by_cases h5 : op = 0x05
  · rw [if_neg h1, if_neg h2, if_neg h3, if_neg h4, if_pos h5]; exact .stat h5
  rw [if_neg h1, if_neg h2, if_neg h3, if_neg h4, if_neg h5]
  by_cases h6 : op = 0x10
  · rw [if_pos h6]; exact .u64 h6
  by_cases h7 : op = 0x11
  · rw [if_neg h6, if_pos h7]; exact .btw h7
  by_cases h8 : op = 0x12
  · rw [if_neg h6, if_neg h7, if_pos h8]; exact .f64 h8
  by_cases h9 : op = 0x13
  · rw [if_neg h6, if_neg h7, if_neg h8, if_pos h9]; exact .fill h9
  rw [if_neg h6, if_neg h7, if_neg h8, if_neg h9]
  refine .illegal fun hm => ?_
  simp only [List.mem_cons, List.not_mem_nil, or_false] at hm
  rcases hm with h | h | h | h | h | h | h | h | h <;> contradiction

/-- Decoding a packed word looks the opcode up in R63's table. -/
theorem decode_packFields (op : BitVec 8) (a b : Word) : decode (packFields op a b) = commandOf op a b := by
  obtain ⟨h1, h2, h3⟩ := Laws.Fields.fields_packFields op a b
  rw [decode, h1, h2, h3]

end Sys2Proof
end

