-- ==== Sys2Proof/Laws/Sampler.lean ====
section
/-! SUPPORT. The sampler's parts: the widening product as a number, the threshold `2^64 mod span` (R124), and what the
redraw loop answers (R128). -/

namespace Sys2Proof.Machine

/-- The widening product is exact (R8). -/
theorem mulw_toNat (a b : Word) : (mulw a b).toNat = a.toNat * b.toNat := by
  have h : a.toNat * b.toNat < 2 ^ 64 * 2 ^ 64 := Nat.mul_lt_mul'' a.isLt b.isLt
  rw [mulw, BitVec.toNat_ofNat]
  exact Nat.mod_eq_of_lt h

/-- The low half as a number (R8). -/
theorem lo64_toNat (p : DWord) : (lo64 p).toNat = p.toNat % 2 ^ 64 := by simp [lo64]

/-- The high half as a number (R8). -/
theorem hi64_toNat (p : DWord) : (hi64 p).toNat = p.toNat / 2 ^ 64 := by
  have := p.isLt
  rw [hi64, BitVec.extractLsb'_toNat, Nat.shiftRight_eq_div_pow]
  exact Nat.mod_eq_of_lt (by omega)

/-- `t = 2^64 mod span` (R124, R128). -/
theorem threshold_toNat (span : Word) (h : span ≠ 0) : (threshold span).toNat = 2 ^ 64 % span.toNat := by
  have hpos : 0 < span.toNat := Nat.pos_of_ne_zero fun h0 => h (BitVec.eq_of_toNat_eq (by simpa using h0))
  have hlt := span.isLt
  have hneg : (0 - span).toNat = 2 ^ 64 - span.toNat := by
    rw [BitVec.toNat_sub]
    change (2 ^ 64 - span.toNat + 0) % 2 ^ 64 = _
    exact Nat.mod_eq_of_lt (by omega)
  rw [threshold, BitVec.toNat_umod, hneg]
  conv_rhs => rw [show (2 : Nat) ^ 64 = (2 ^ 64 - span.toNat) + span.toNat by omega]
  rw [Nat.add_mod_right]

/-- `t < span` (R124). -/
theorem threshold_lt (span : Word) (h : span ≠ 0) : threshold span < span := by
  have hpos : 0 < span.toNat := Nat.pos_of_ne_zero fun h0 => h (BitVec.eq_of_toNat_eq (by simpa using h0))
  rw [BitVec.lt_def, threshold_toNat span h]
  exact Nat.mod_lt _ hpos

/-- `span` as a number: `hi - lo + 1`, or 0 for the full range (R122). -/
theorem spanOf_toNat {lo hi : Word} (h : lo ≤ hi) : (spanOf lo hi).toNat = (hi.toNat - lo.toNat + 1) % 2 ^ 64 := by
  rw [spanOf, BitVec.toNat_add, BitVec.toNat_sub_of_le h]
  rfl

/-- The `i`-th draw after `g` is rejected at threshold `t` (R124). -/
def Rejected (span t : Word) (g : Gen) (i : Nat) : Prop := lo64 (mulw (rawWord g i) span) < t

/-- A rejected draw, in numbers: its `frac` is below `2^64 mod n`, `n` the exact span (R124). -/
theorem rejected_iff {lo hi : Word} (hle : lo ≤ hi) (hlt : hi.toNat - lo.toNat + 1 < 2 ^ 64) (g : Gen) (j : Nat) :
    Rejected (spanOf lo hi) (threshold (spanOf lo hi)) g j ↔
      (rawWord g j).toNat * (hi.toNat - lo.toNat + 1) % 2 ^ 64 < 2 ^ 64 % (hi.toNat - lo.toNat + 1) := by
  have hs : (spanOf lo hi).toNat = hi.toNat - lo.toNat + 1 := (spanOf_toNat hle).trans (Nat.mod_eq_of_lt hlt)
  have h0 : spanOf lo hi ≠ 0 := fun h => by
    rw [h] at hs
    change 0 = _ at hs
    omega
  rw [Rejected, BitVec.lt_def, lo64_toNat, mulw_toNat, threshold_toNat _ h0, hs]

/-- The loop, entered with the `i`-th draw, ends with the first draw that is not rejected (R128). -/
theorem redraw_first {span t : Word} {g : Gen} {i k n : Nat} (hik : i ≤ k) (hn : k ≤ i + n)
    (hrej : ∀ j, i ≤ j → j < k → Rejected span t g j) (hacc : ¬ Rejected span t g k) :
    redraw span t n (mulw (rawWord g i) span) (advance i g) = some (mulw (rawWord g k) span, advance k g) := by
  induction n generalizing i with
  | zero =>
    obtain rfl : i = k := by omega
    simp only [redraw]
    exact if_neg hacc
  | succ n ih =>
    rw [redraw]
    rcases Nat.eq_or_lt_of_le hik with rfl | hlt
    · exact if_neg hacc
    · refine (if_pos (hrej i (Nat.le_refl i) hlt)).trans ?_
      have h := ih (i := i + 1) hlt (by omega) fun j h1 h2 => hrej j (by omega) h2
      simpa only [nextWord, rawWord, advance_succ_last] using h

/-- Whatever the loop answers, it is the first draw that is not rejected (R128). -/
theorem redraw_some {span t : Word} {g : Gen} {i n : Nat} {r : DWord × Gen}
    (h : redraw span t n (mulw (rawWord g i) span) (advance i g) = some r) :
    ∃ k, i ≤ k ∧ (∀ j, i ≤ j → j < k → Rejected span t g j) ∧ ¬ Rejected span t g k ∧
      r = (mulw (rawWord g k) span, advance k g) := by
  induction n generalizing i with
  | zero =>
    rw [redraw] at h
    split at h
    · cases h
    · rename_i hacc
      exact ⟨i, Nat.le_refl i, fun j h1 h2 => absurd h1 (by omega), hacc, (Option.some.inj h).symm⟩
  | succ n ih =>
    rw [redraw] at h
    split at h
    · rename_i hrej
      have h' : redraw span t n (mulw (rawWord g (i + 1)) span) (advance (i + 1) g) = some r := by
        simpa only [nextWord, rawWord, advance_succ_last] using h
      obtain ⟨k, hk, hall, hacc, hr⟩ := ih h'
      refine ⟨k, by omega, fun j h1 h2 => ?_, hacc, hr⟩
      rcases Nat.eq_or_lt_of_le h1 with rfl | h1
      · exact hrej
      · exact hall j h1 h2
    · rename_i hacc
      exact ⟨i, Nat.le_refl i, fun j h1 h2 => absurd h1 (by omega), hacc, (Option.some.inj h).symm⟩

/-- The loop answers nothing only if it rejected every draw it made. -/
theorem redraw_none {span t : Word} {g : Gen} {i n : Nat}
    (h : redraw span t n (mulw (rawWord g i) span) (advance i g) = none) :
    ∀ j, i ≤ j → j ≤ i + n → Rejected span t g j := by
  induction n generalizing i with
  | zero =>
    rw [redraw] at h
    split at h
    · rename_i hrej
      intro j h1 h2
      obtain rfl : j = i := by omega
      exact hrej
    · cases h
  | succ n ih =>
    rw [redraw] at h
    split at h
    · rename_i hrej
      have h' : redraw span t n (mulw (rawWord g (i + 1)) span) (advance (i + 1) g) = none := by
        simpa only [nextWord, rawWord, advance_succ_last] using h
      intro j h1 h2
      rcases Nat.eq_or_lt_of_le h1 with rfl | h1
      · exact hrej
      · exact ih h' j h1 (by omega)
    · cases h

/-- A draw with `frac ≥ span` is one with `frac ≥ t`: the outer test only saves computing `t` (R124). -/
theorem not_rejected_of_span_le {span : Word} {g : Gen} {i : Nat} (h0 : span ≠ 0)
    (h : ¬ lo64 (mulw (rawWord g i) span) < span) : ¬ Rejected span (threshold span) g i := by
  have ht := threshold_lt span h0
  unfold Rejected
  rw [BitVec.lt_def] at *
  omega

/-- `sample`, read off the raw words: the first draw, and the loop where its `frac` is below `span` (R124). -/
theorem sample_eq (lo span : Word) (g : Gen) :
    sample lo span g =
      if lo64 (mulw (rawWord g 1) span) < span then
        (redraw span (threshold span) redrawBound (mulw (rawWord g 1) span) (advance 1 g)).map
          (fun r => (lo + hi64 r.1, r.2))
      else some (lo + hi64 (mulw (rawWord g 1) span), advance 1 g) := by
  unfold sample
  simp only [nextWord, rawWord, advance_succ, advance_zero]
  congr 1
  cases redraw span (threshold span) redrawBound (mulw (temper (transition g)) span) (transition g) <;> rfl

end Sys2Proof.Machine
end

