-- ==== Sys2Proof/Laws/State.lean ====
section
/-! SUPPORT. One lemma per field per update of State, each true by rfl, so that no later proof unfolds a record update. -/

namespace Sys2Proof.Machine

variable (s : State)

/-! `State.setPair`. -/

@[simp] theorem State.setPair_x (g : Gen) : (s.setPair g).x = g.1 := rfl
@[simp] theorem State.setPair_y (g : Gen) : (s.setPair g).y = g.2 := rfl
@[simp] theorem State.setPair_seeded (g : Gen) : (s.setPair g).seeded = s.seeded := rfl
@[simp] theorem State.setPair_mem (g : Gen) : (s.setPair g).mem = s.mem := rfl
@[simp] theorem State.setPair_backed (g : Gen) : (s.setPair g).backed = s.backed := rfl
@[simp] theorem State.setPair_inputs (g : Gen) : (s.setPair g).inputs = s.inputs := rfl
@[simp] theorem State.setPair_responses (g : Gen) : (s.setPair g).responses = s.responses := rfl
@[simp] theorem State.setPair_freeCount (g : Gen) : (s.setPair g).freeCount = s.freeCount := rfl
@[simp] theorem State.setPair_pair (g : Gen) : (s.setPair g).pair = g := rfl

/-! `State.establish`. -/

@[simp] theorem State.establish_x (g : Gen) : (s.establish g).x = g.1 := rfl
@[simp] theorem State.establish_y (g : Gen) : (s.establish g).y = g.2 := rfl
@[simp] theorem State.establish_seeded (g : Gen) : (s.establish g).seeded = true := rfl
@[simp] theorem State.establish_mem (g : Gen) : (s.establish g).mem = s.mem := rfl
@[simp] theorem State.establish_backed (g : Gen) : (s.establish g).backed = s.backed := rfl
@[simp] theorem State.establish_inputs (g : Gen) : (s.establish g).inputs = s.inputs := rfl
@[simp] theorem State.establish_responses (g : Gen) : (s.establish g).responses = s.responses := rfl
@[simp] theorem State.establish_freeCount (g : Gen) : (s.establish g).freeCount = s.freeCount := rfl
@[simp] theorem State.establish_pair (g : Gen) : (s.establish g).pair = g := rfl

/-! `State.setMem`. -/

@[simp] theorem State.setMem_x (m : List Host.Cell) : (s.setMem m).x = s.x := rfl
@[simp] theorem State.setMem_y (m : List Host.Cell) : (s.setMem m).y = s.y := rfl
@[simp] theorem State.setMem_seeded (m : List Host.Cell) : (s.setMem m).seeded = s.seeded := rfl
@[simp] theorem State.setMem_mem (m : List Host.Cell) : (s.setMem m).mem = m := rfl
@[simp] theorem State.setMem_backed (m : List Host.Cell) : (s.setMem m).backed = s.backed := rfl
@[simp] theorem State.setMem_inputs (m : List Host.Cell) : (s.setMem m).inputs = s.inputs := rfl
@[simp] theorem State.setMem_responses (m : List Host.Cell) : (s.setMem m).responses = s.responses := rfl
@[simp] theorem State.setMem_freeCount (m : List Host.Cell) : (s.setMem m).freeCount = s.freeCount := rfl
@[simp] theorem State.setMem_pair (m : List Host.Cell) : (s.setMem m).pair = s.pair := rfl

/-! `State.answer`. -/

@[simp] theorem State.answer_x (r : Response) : (s.answer r).x = s.x := rfl
@[simp] theorem State.answer_y (r : Response) : (s.answer r).y = s.y := rfl
@[simp] theorem State.answer_seeded (r : Response) : (s.answer r).seeded = s.seeded := rfl
@[simp] theorem State.answer_mem (r : Response) : (s.answer r).mem = s.mem := rfl
@[simp] theorem State.answer_backed (r : Response) : (s.answer r).backed = s.backed := rfl
@[simp] theorem State.answer_inputs (r : Response) : (s.answer r).inputs = s.inputs := rfl
@[simp] theorem State.answer_responses (r : Response) : (s.answer r).responses = s.responses ++ [r] := rfl
@[simp] theorem State.answer_freeCount (r : Response) : (s.answer r).freeCount = s.freeCount := rfl
@[simp] theorem State.answer_pair (r : Response) : (s.answer r).pair = s.pair := rfl

/-! `State.respond`. -/

@[simp] theorem State.respond_x (v : Word) : (s.respond v).x = s.x := rfl
@[simp] theorem State.respond_y (v : Word) : (s.respond v).y = s.y := rfl
@[simp] theorem State.respond_seeded (v : Word) : (s.respond v).seeded = s.seeded := rfl
@[simp] theorem State.respond_mem (v : Word) : (s.respond v).mem = s.mem := rfl
@[simp] theorem State.respond_backed (v : Word) : (s.respond v).backed = s.backed := rfl
@[simp] theorem State.respond_inputs (v : Word) : (s.respond v).inputs = s.inputs := rfl
@[simp] theorem State.respond_responses (v : Word) : (s.respond v).responses = s.responses ++ [⟨.ok, v⟩] := rfl
@[simp] theorem State.respond_freeCount (v : Word) : (s.respond v).freeCount = s.freeCount := rfl
@[simp] theorem State.respond_pair (v : Word) : (s.respond v).pair = s.pair := rfl

/-! `State.raise`. -/

@[simp] theorem State.raise_x (c : Status) : (s.raise c).x = s.x := rfl
@[simp] theorem State.raise_y (c : Status) : (s.raise c).y = s.y := rfl
@[simp] theorem State.raise_seeded (c : Status) : (s.raise c).seeded = s.seeded := rfl
@[simp] theorem State.raise_mem (c : Status) : (s.raise c).mem = s.mem := rfl
@[simp] theorem State.raise_backed (c : Status) : (s.raise c).backed = s.backed := rfl
@[simp] theorem State.raise_inputs (c : Status) : (s.raise c).inputs = s.inputs := rfl
@[simp] theorem State.raise_responses (c : Status) : (s.raise c).responses = s.responses ++ [⟨c, 0⟩] := rfl
@[simp] theorem State.raise_freeCount (c : Status) : (s.raise c).freeCount = s.freeCount := rfl
@[simp] theorem State.raise_pair (c : Status) : (s.raise c).pair = s.pair := rfl

/-! `State.takeReset`. -/

@[simp] theorem State.takeReset_x : (s.takeReset).x = Config.freeWord s.freeCount := rfl
@[simp] theorem State.takeReset_y : (s.takeReset).y = Config.freeWord (s.freeCount + 1) := rfl
@[simp] theorem State.takeReset_seeded : (s.takeReset).seeded = false := rfl
@[simp] theorem State.takeReset_mem : (s.takeReset).mem = s.mem := rfl
@[simp] theorem State.takeReset_backed : (s.takeReset).backed = s.backed := rfl
@[simp] theorem State.takeReset_inputs : (s.takeReset).inputs = s.inputs := rfl
@[simp] theorem State.takeReset_responses : (s.takeReset).responses = s.responses := rfl
@[simp] theorem State.takeReset_freeCount : (s.takeReset).freeCount = s.freeCount + 2 := rfl

/-! `State.accept`. -/

@[simp] theorem State.accept_x (rest : List Input) : (s.accept rest).x = s.x := rfl
@[simp] theorem State.accept_y (rest : List Input) : (s.accept rest).y = s.y := rfl
@[simp] theorem State.accept_seeded (rest : List Input) : (s.accept rest).seeded = s.seeded := rfl
@[simp] theorem State.accept_mem (rest : List Input) : (s.accept rest).mem = s.mem := rfl
@[simp] theorem State.accept_backed (rest : List Input) : (s.accept rest).backed = s.backed := rfl
@[simp] theorem State.accept_inputs (rest : List Input) : (s.accept rest).inputs = rest := rfl
@[simp] theorem State.accept_responses (rest : List Input) : (s.accept rest).responses = s.responses := rfl
@[simp] theorem State.accept_freeCount (rest : List Input) : (s.accept rest).freeCount = s.freeCount := rfl
@[simp] theorem State.accept_pair (rest : List Input) : (s.accept rest).pair = s.pair := rfl

/-! `State.present`. -/

@[simp] theorem State.present_x (w : CmdWord) : (s.present w).x = s.x := rfl
@[simp] theorem State.present_y (w : CmdWord) : (s.present w).y = s.y := rfl
@[simp] theorem State.present_seeded (w : CmdWord) : (s.present w).seeded = s.seeded := rfl
@[simp] theorem State.present_mem (w : CmdWord) : (s.present w).mem = s.mem := rfl
@[simp] theorem State.present_backed (w : CmdWord) : (s.present w).backed = s.backed := rfl
@[simp] theorem State.present_inputs (w : CmdWord) : (s.present w).inputs = .command w :: s.inputs := rfl
@[simp] theorem State.present_responses (w : CmdWord) : (s.present w).responses = s.responses := rfl
@[simp] theorem State.present_freeCount (w : CmdWord) : (s.present w).freeCount = s.freeCount := rfl
@[simp] theorem State.present_pair (w : CmdWord) : (s.present w).pair = s.pair := rfl

/-! The remaining plain facts. -/

/-- `respond` and `raise` are both one response (R60(b)). -/
theorem State.respond_eq (v : Word) : s.respond v = s.answer ⟨.ok, v⟩ := rfl

theorem State.raise_eq (c : Status) : s.raise c = s.answer ⟨c, 0⟩ := rfl

theorem State.withFetchWord_eq (nbits w : Nat) : s.withFetchWord nbits w = s.present (tableWord nbits w) := rfl

/-- What the host presents first is what the block accepts next. -/
@[simp] theorem State.accept_present (w : CmdWord) : (s.present w).accept s.inputs = s := rfl

end Sys2Proof.Machine
end

