-- ==== Sys2Proof/Laws/Exec.lean ====
section
/-! SUPPORT. Once for all commands: everything `exec` can answer. Whole-machine claims are derived from it, by cases, instead of
unfolding the meanings. -/

namespace Sys2Proof.Machine

/-- What a command can do to the machine (R31, R170, R178, R198). -/
inductive ExecCase (s : State) : Host.Outcome State Fault Refusal → Prop
  /-- A condition is raised. -/
  | raised (c : Status) (h : c ≠ .ok) : ExecCase s (.next (s.raise c))
  /-- A value is answered and nothing else happens: `GETX`, `GETY`, `STAT`. -/
  | read (v : Word) : ExecCase s (.next (s.respond v))
  /-- A state is established: `LDS`, `SEED`. -/
  | established (g : Gen) (h : g ≠ (0, 0)) : ExecCase s (.next ((s.establish g).respond 0))
  /-- `k` draws, at least one, and a value: `U64`, `BTW`, `F64`. -/
  | drawn (k : Nat) (v : Word) (hs : s.seeded = true) (hk : 0 < k) :
      ExecCase s (.next ((s.setPair (advance k s.pair)).respond v))
  /-- A region is filled: `FILL`. -/
  | filled (a len : Nat) (hs : s.seeded = true) (ha : a + len ≤ 2 ^ 64) (hb : regionBacked s.backed a len = true) :
      ExecCase s (.next (((s.setMem (memWriteAll s.mem ((List.range len).map (fillCell a s.pair)))).setPair
        (advance (fillDraws len) s.pair)).respond 0))
  /-- The sampler's loop does not end. -/
  | stuck (hs : s.seeded = true) : ExecCase s (.fault .samplerNeverAccepts)
  /-- A `FILL` region holds an unbacked address. -/
  | unbacked (hs : s.seeded = true) : ExecCase s (.refused .unbackedMemory)

/-- The pair `SEED` establishes is never `(0, 0)`, if the fallback is not (R102). -/
theorem seedPair_ne_zero (expand : Word → Gen) {fallback : Gen} (h : fallback ≠ (0, 0)) (v : Word) :
    seedPair expand fallback v ≠ (0, 0) := by
  unfold seedPair
  split
  · exact h
  · assumption

/-- The open parameter `SEED_FALLBACK` meets its constraint (R6). -/
theorem seedFallback_ne_zero : Config.seedFallback ≠ (0, 0) := by
  unfold Config.seedFallback
  split
  · decide
  · assumption

/-- What a sample answers: the value and the state some draws later, at least one (R128). -/
theorem between_some {lo hi : Word} {g : Gen} {r : Word × Gen} (h : between lo hi g = some r) :
    ∃ k, 0 < k ∧ r.2 = advance k g := by
  unfold between at h
  split at h
  · exact ⟨1, Nat.one_pos, by rw [← Option.some.inj h]; rfl⟩
  · rw [sample_eq] at h
    split at h
    · obtain ⟨q, hq, hr⟩ := Option.map_eq_some_iff.1 h
      obtain ⟨k, hk, -, -, hqk⟩ := redraw_some hq
      exact ⟨k, hk, by rw [← hr, hqk]⟩
    · exact ⟨1, Nat.one_pos, by rw [← Option.some.inj h]⟩

/-- What a `BTW` that draws answers, in closed form: the first draw it accepts (R123, R128). -/
theorem between_first {lo hi : Word} {g : Gen} {r : Word × Gen} (hle : lo ≤ hi) (h : between lo hi g = some r) :
    ∃ k, FirstAccepted lo hi g k ∧ r =
      (BitVec.ofNat 64 (lo.toNat + (rawWord g k).toNat * (hi.toNat - lo.toNat + 1) / 2 ^ 64), advance k g) := by
  have hlo : lo.toNat ≤ hi.toNat := hle
  have hhi := hi.isLt
  have hsp := spanOf_toNat hle
  by_cases hfull : hi.toNat - lo.toNat + 1 = 2 ^ 64
  · have h0 : spanOf lo hi = 0 := BitVec.eq_of_toNat_eq (hsp.trans (by rw [hfull]; rfl))
    have hz : lo.toNat = 0 := by omega
    rw [between, if_pos h0] at h
    refine ⟨1, ⟨Nat.le_refl 1, fun j h1 h2 => by omega, ?_⟩, ?_⟩
    · rw [hfull, Nat.mod_self]
      exact Nat.zero_le _
    · rw [← Option.some.inj h, hfull, hz, Nat.mul_div_cancel _ (by decide), Nat.zero_add, BitVec.ofNat_toNat,
        BitVec.setWidth_eq, nextWord_eq]
  · have hlt : hi.toNat - lo.toNat + 1 < 2 ^ 64 := by omega
    have hs : (spanOf lo hi).toNat = hi.toNat - lo.toNat + 1 := hsp.trans (Nat.mod_eq_of_lt hlt)
    have h0 : spanOf lo hi ≠ 0 := fun h0 => by
      rw [h0] at hs
      change 0 = _ at hs
      omega
    have hv (k : Nat) : lo + hi64 (mulw (rawWord g k) (spanOf lo hi)) =
        BitVec.ofNat 64 (lo.toNat + (rawWord g k).toNat * (hi.toNat - lo.toNat + 1) / 2 ^ 64) :=
      BitVec.eq_of_toNat_eq (by rw [BitVec.toNat_add, hi64_toNat, mulw_toNat, hs, BitVec.toNat_ofNat])
    rw [between, if_neg h0, sample_eq] at h
    split at h
    · obtain ⟨q, hq, hr⟩ := Option.map_eq_some_iff.1 h
      obtain ⟨k, hk, hrej, hacc, hqk⟩ := redraw_some hq
      refine ⟨k, ⟨hk, fun j h1 h2 => (rejected_iff hle hlt g j).1 (hrej j h1 h2), ?_⟩, ?_⟩
      · exact Nat.le_of_not_lt fun hn => hacc ((rejected_iff hle hlt g k).2 hn)
      · rw [← hr, hqk, ← hv]
    · rename_i hspan
      refine ⟨1, ⟨Nat.le_refl 1, fun j h1 h2 => by omega, ?_⟩, ?_⟩
      · exact Nat.le_of_not_lt fun hn => not_rejected_of_span_le h0 hspan ((rejected_iff hle hlt g 1).2 hn)
      · rw [← Option.some.inj h, ← hv]

theorem not_eq_false {b : Bool} (h : ¬ b = false) : b = true := by simpa using h

theorem execLds_case (x y : Word) (s : State) : ExecCase s (execLds x y s) := by
  unfold execLds
  split
  · exact .raised _ (by decide)
  · rename_i h
    exact .established _ fun h0 => h (by simpa [Prod.ext_iff] using h0)

theorem execSeed_case (v : Word) (s : State) : ExecCase s (execSeed v s) :=
  .established _ (seedPair_ne_zero _ seedFallback_ne_zero v)

theorem execGetx_case (s : State) : ExecCase s (execGetx s) := by
  unfold execGetx
  split
  · exact .raised _ (by decide)
  · exact .read _

theorem execGety_case (s : State) : ExecCase s (execGety s) := by
  unfold execGety
  split
  · exact .raised _ (by decide)
  · exact .read _

theorem execStat_case (s : State) : ExecCase s (execStat s) := .read _

theorem execU64_case (s : State) : ExecCase s (execU64 s) := by
  unfold execU64
  split
  · exact .raised _ (by decide)
  · rename_i h
    exact .drawn 1 _ (not_eq_false h) Nat.one_pos

theorem execBtw_case (lo hi : Word) (s : State) : ExecCase s (execBtw lo hi s) := by
  unfold execBtw
  split
  · exact .raised _ (by decide)
  · rename_i h
    split
    · exact .raised _ (by decide)
    · split
      · rename_i r hr
        obtain ⟨k, hk, hr2⟩ := between_some hr
        rw [hr2]
        exact .drawn k _ (not_eq_false h) hk
      · exact .stuck (not_eq_false h)

theorem execF64_case (s : State) : ExecCase s (execF64 s) := by
  unfold execF64
  split
  · exact .raised _ (by decide)
  · rename_i h
    exact .drawn 1 _ (not_eq_false h) Nat.one_pos

theorem execFill_case (a len : Word) (s : State) : ExecCase s (execFill a len s) := by
  unfold execFill
  split
  · exact .raised _ (by decide)
  · rename_i h
    split
    · exact .raised _ (by decide)
    · rename_i hw
      split
      · exact .unbacked (not_eq_false h)
      · rename_i hb
        simp only [fillRun_eq]
        exact .filled _ _ (not_eq_false h) ((bufWraps_eq_false_iff a len).1 (by simpa using hw)) (not_eq_false hb)

/-- Everything `exec` can answer. -/
theorem exec_case (i : Instr) (s : State) : ExecCase s (exec i s) := by
  cases i with
  | lds x y => exact execLds_case x y s
  | seed v => exact execSeed_case v s
  | getx => exact execGetx_case s
  | gety => exact execGety_case s
  | stat => exact execStat_case s
  | u64 => exact execU64_case s
  | btw lo hi => exact execBtw_case lo hi s
  | f64 => exact execF64_case s
  | fill a len => exact execFill_case a len s

/-- What a `FILL` that passes its checks leaves (R157). -/
def fillResult (a len : Word) (s : State) : State :=
  ((s.setMem (memWriteAll s.mem (fillRun a.toNat len.toNat s.pair).1)).setPair (advance (fillDraws len.toNat) s.pair)).respond 0

/-- A `FILL` of a backed region inside the address space runs (R45, R157, R158). -/
theorem execFill_runs {a len : Word} {s : State} (hs : s.seeded = true) (ha : a.toNat + len.toNat ≤ 2 ^ 64)
    (hb : regionBacked s.backed a.toNat len.toNat = true) : execFill a len s = .next (fillResult a len s) := by
  unfold execFill
  rw [if_neg (by simp [hs]), if_neg (by simpa [bufWraps] using ha), if_neg (by simp [hb]), fillRun_eq]
  simp only [fillResult, fillRun_eq]

/-- A `FILL` that passes its checks and answers a next state has run (R157). -/
theorem execFill_next {a len : Word} {s t : State} (hs : s.seeded = true) (ha : a.toNat + len.toNat ≤ 2 ^ 64)
    (h : execFill a len s = .next t) : t = fillResult a len s := by
  by_cases hb : regionBacked s.backed a.toNat len.toNat = false
  · unfold execFill at h
    rw [if_neg (by simp [hs]), if_neg (by simpa [bufWraps] using ha), if_pos hb] at h
    cases h
  · rw [execFill_runs hs ha (not_eq_false hb)] at h
    exact (Host.Outcome.next.inj h).symm

/-- A `BTW` below the full range answers with the first draw that is not rejected, if there is one (R128). -/
theorem execBtw_first {lo hi : Word} {s : State} {k : Nat} (hs : s.seeded = true) (hle : lo ≤ hi) (h0 : spanOf lo hi ≠ 0)
    (hk : 1 ≤ k) (hkb : k ≤ 1 + redrawBound)
    (hrej : ∀ j, 1 ≤ j → j < k → Rejected (spanOf lo hi) (threshold (spanOf lo hi)) s.pair j)
    (hacc : ¬ Rejected (spanOf lo hi) (threshold (spanOf lo hi)) s.pair k) :
    execBtw lo hi s =
      .next ((s.setPair (advance k s.pair)).respond (lo + hi64 (mulw (rawWord s.pair k) (spanOf lo hi)))) := by
  have hb : between lo hi s.pair = some (lo + hi64 (mulw (rawWord s.pair k) (spanOf lo hi)), advance k s.pair) := by
    unfold between
    rw [if_neg h0, sample_eq]
    split
    · rw [redraw_first hk hkb hrej hacc]
      rfl
    · rename_i h
      obtain rfl : k = 1 := by
        by_contra hne
        exact not_rejected_of_span_le h0 h (hrej 1 (Nat.le_refl 1) (by omega))
      rfl
  unfold execBtw
  rw [if_neg (by simp [hs]), if_neg (by rw [BitVec.not_lt]; exact hle), hb]

/-- A command changes neither what the host presents, nor the platform, nor the count of free values. -/
theorem exec_frame {i : Instr} {s t : State} (h : exec i s = .next t) :
    t.inputs = s.inputs ∧ t.backed = s.backed ∧ t.freeCount = s.freeCount := by
  have hc := exec_case i s
  rw [h] at hc
  cases hc <;> exact ⟨rfl, rfl, rfl⟩

end Sys2Proof.Machine
end

