-- ==== Sys2Proof/Laws/Period.lean ====
section
/-! SUPPORT. The evidence for R85: iterated from `(1, 0)`, `F` first returns after exactly `2^128 - 1` steps. `F` satisfies a
polynomial of degree 128 over the field of two elements at `(1, 0)`, so `F^k (1, 0)` is read off `t^k` modulo that polynomial,
which the kernel computes by repeated squaring; the nine prime factors of `2^128 - 1` are R85's. A polynomial is a number,
bit `i` its coefficient of `t^i`. -/

namespace Sys2Proof.Machine

/-- The pair with which the evidence starts. -/
def unitGen : Gen := (1, 0)

/-- The zero pair. -/
def zeroGen : Gen := (0, 0)

/-- The polynomial of degree 128 that `F` satisfies at `unitGen`. -/
def charPoly : Nat := 0x102060a1e226ea2df222e221e2266aaff

/-- Multiplication by `t` modulo `charPoly`. -/
def polyShift (a : Nat) : Nat := Nat.xor (Nat.mul 2 a) (Nat.mul (Nat.shiftRight a 127) charPoly)

/-- The product of the low `n` bits of `q` with `r`, modulo `charPoly`. -/
def polyMul : Nat → Nat → Nat → Nat
  | 0, _, _ => 0
  | n + 1, q, r => Nat.xor (Nat.mul (Nat.mod q 2) r) (polyShift (polyMul n (Nat.div q 2) r))

/-- `t` to the power whose bits, least significant first, are given; modulo `charPoly`. -/
def polyPow : List Bool → Nat
  | [] => 1
  | true :: bs => polyShift (polyMul 128 (polyPow bs) (polyPow bs))
  | false :: bs => polyMul 128 (polyPow bs) (polyPow bs)

/-- The low `n` bits of a number, least significant first. -/
def bitList : Nat → Nat → List Bool
  | 0, _ => []
  | n + 1, k => (k % 2 == 1) :: bitList n (k / 2)

/-- The number whose bits are given, least significant first. -/
def bitValue : List Bool → Nat
  | [] => 0
  | b :: bs => b.toNat + 2 * bitValue bs

/-- The polynomial `q` (its low `n` coefficients) in `F`, applied to `g`. -/
def polyAct : Nat → Nat → Gen → Gen
  | 0, _, _ => zeroGen
  | n + 1, q, g => xorGen (if q % 2 = 1 then g else zeroGen) (transition (polyAct n (q / 2) g))

theorem transition_zeroGen : transition zeroGen = zeroGen := by decide

theorem xorGen_zero (g : Gen) : xorGen g zeroGen = g := by
  simp [xorGen, zeroGen]

theorem zero_xorGen (g : Gen) : xorGen zeroGen g = g := by
  simp [xorGen, zeroGen]

theorem xorGen_self (g : Gen) : xorGen g g = zeroGen := by
  simp [xorGen, zeroGen]

theorem xorGen_assoc (f g h : Gen) : xorGen (xorGen f g) h = xorGen f (xorGen g h) := by
  simp [xorGen, BitVec.xor_assoc]

theorem xorGen_comm (g h : Gen) : xorGen g h = xorGen h g := by
  simp [xorGen, BitVec.xor_comm]

theorem xorGen_left_comm (f g h : Gen) : xorGen f (xorGen g h) = xorGen g (xorGen f h) := by
  rw [← xorGen_assoc, xorGen_comm f g, xorGen_assoc]

theorem polyAct_zero_poly (n : Nat) (g : Gen) : polyAct n 0 g = zeroGen := by
  induction n with
  | zero => rfl
  | succ n ih => simp [polyAct, ih, transition_zeroGen, xorGen_zero]

/-- A polynomial in `F` commutes with `F`. -/
theorem polyAct_transition (n q : Nat) (g : Gen) : polyAct n q (transition g) = transition (polyAct n q g) := by
  induction n generalizing q with
  | zero => exact transition_zeroGen.symm
  | succ n ih =>
    rw [polyAct, polyAct, transition_xorGen, ih]
    split <;> simp [transition_zeroGen]

theorem polyAct_advance (n q k : Nat) (g : Gen) : polyAct n q (advance k g) = advance k (polyAct n q g) := by
  induction k generalizing g with
  | zero => rfl
  | succ k ih => rw [advance_succ, advance_succ, ih, polyAct_transition]

/-- Acting with a sum of polynomials is the sum of the actions. -/
theorem polyAct_xor (n q r : Nat) (g : Gen) : polyAct n (q ^^^ r) g = xorGen (polyAct n q g) (polyAct n r g) := by
  induction n generalizing q r with
  | zero => exact (xorGen_zero zeroGen).symm
  | succ n ih =>
    have hd : (q ^^^ r) / 2 = q / 2 ^^^ r / 2 := by
      simpa using Nat.xor_div_two_pow (a := q) (b := r) (n := 1)
    have hm : (q ^^^ r) % 2 = (q % 2) ^^^ (r % 2) := by
      simpa using Nat.xor_mod_two_pow (a := q) (b := r) (n := 1)
    rw [polyAct, polyAct, polyAct, hd, hm, ih, transition_xorGen]
    rcases Nat.mod_two_eq_zero_or_one q with h1 | h1 <;> rcases Nat.mod_two_eq_zero_or_one r with h2 | h2 <;>
      simp [h1, h2, zero_xorGen, xorGen_assoc, xorGen_left_comm, ← xorGen_assoc g g, xorGen_self]

/-- Coefficients that are zero add nothing. -/
theorem polyAct_succ_of_lt (n q : Nat) (g : Gen) (h : q < 2 ^ n) : polyAct (n + 1) q g = polyAct n q g := by
  induction n generalizing q with
  | zero =>
    have hq : q = 0 := by omega
    rw [hq, polyAct_zero_poly, polyAct_zero_poly]
  | succ n ih =>
    have hq : q / 2 < 2 ^ n := by rw [Nat.pow_succ] at h; omega
    rw [polyAct, ih _ hq]
    rfl

/-- Multiplying by `t` modulo `charPoly` stays below degree 128. -/
theorem polyShift_lt {a : Nat} (h : a < 2 ^ 128) : polyShift a < 2 ^ 128 := by
  show 2 * a ^^^ (a >>> 127) * charPoly < 2 ^ 128
  rw [Nat.shiftRight_eq_div_pow]
  rcases Nat.lt_or_ge a (2 ^ 127) with ha | ha
  · rw [Nat.div_eq_of_lt ha]; simp; omega
  · have h1 : a / 2 ^ 127 = 1 := by omega
    rw [h1, Nat.one_mul]
    refine Nat.lt_pow_two_of_testBit _ fun i hi => ?_
    rw [Nat.testBit_xor]
    rcases Nat.eq_or_lt_of_le hi with rfl | hi
    · have h2 : 2 * a / 2 ^ 128 % 2 = 1 := by omega
      rw [Nat.testBit_eq_decide_div_mod_eq, h2]
      decide
    · have h129 : (2 : Nat) ^ 129 ≤ 2 ^ i := Nat.pow_le_pow_right (by omega) hi
      rw [Nat.testBit_lt_two_pow (by omega), Nat.testBit_lt_two_pow (Nat.lt_of_lt_of_le (by decide) h129)]
      rfl

theorem polyMul_lt (n q : Nat) {r : Nat} (h : r < 2 ^ 128) : polyMul n q r < 2 ^ 128 := by
  induction n generalizing q with
  | zero => simp [polyMul]
  | succ n ih =>
    refine Nat.xor_lt_two_pow ?_ (polyShift_lt (ih _))
    show q % 2 * r < 2 ^ 128
    rcases Nat.mod_two_eq_zero_or_one q with h1 | h1 <;> rw [h1] <;> omega

theorem polyPow_lt (bs : List Bool) : polyPow bs < 2 ^ 128 := by
  induction bs with
  | nil => decide
  | cons b bs ih =>
    cases b
    · exact polyMul_lt _ _ ih
    · exact polyShift_lt (polyMul_lt _ _ ih)

/-- `charPoly` in `F` annihilates `unitGen`. -/
theorem charPoly_act : polyAct 129 charPoly unitGen = zeroGen := by decide +kernel

/-- Multiplying by `t` modulo `charPoly` applies `F` once more. -/
theorem polyShift_act {a : Nat} (h : a < 2 ^ 128) :
    polyAct 128 (polyShift a) unitGen = transition (polyAct 128 a unitGen) := by
  have hc : polyAct 129 ((a >>> 127) * charPoly) unitGen = zeroGen := by
    rw [Nat.shiftRight_eq_div_pow]
    have : a / 2 ^ 127 = 0 ∨ a / 2 ^ 127 = 1 := by omega
    rcases this with h1 | h1
    · rw [h1, Nat.zero_mul, polyAct_zero_poly]
    · rw [h1, Nat.one_mul, charPoly_act]
  have h2 : polyAct 129 (2 * a) unitGen = transition (polyAct 128 a unitGen) := by
    rw [polyAct, Nat.mul_mod_right, Nat.mul_div_cancel_left _ (by decide)]
    exact zero_xorGen _
  have hs : polyShift a = 2 * a ^^^ (a >>> 127) * charPoly := rfl
  rw [← polyAct_succ_of_lt 128 _ _ (polyShift_lt h), hs, polyAct_xor, h2, hc, xorGen_zero]

/-- Multiplying polynomials composes their actions. -/
theorem polyMul_act (n q : Nat) {r : Nat} (h : r < 2 ^ 128) :
    polyAct 128 (polyMul n q r) unitGen = polyAct n q (polyAct 128 r unitGen) := by
  induction n generalizing q with
  | zero => exact polyAct_zero_poly _ _
  | succ n ih =>
    have hm : polyMul (n + 1) q r = (q % 2) * r ^^^ polyShift (polyMul n (q / 2) r) := rfl
    rw [hm, polyAct_xor, polyShift_act (polyMul_lt _ _ h), ih]
    change _ = xorGen (if q % 2 = 1 then polyAct 128 r unitGen else zeroGen) _
    congr 1
    rcases Nat.mod_two_eq_zero_or_one q with h1 | h1 <;> rw [h1]
    · rw [Nat.zero_mul, polyAct_zero_poly]; rfl
    · rw [Nat.one_mul]; rfl

/-- `t^k` acts as `F^k`. -/
theorem polyPow_act (bs : List Bool) : polyAct 128 (polyPow bs) unitGen = advance (bitValue bs) unitGen := by
  induction bs with
  | nil => decide +kernel
  | cons b bs ih =>
    have hsq : polyAct 128 (polyMul 128 (polyPow bs) (polyPow bs)) unitGen = advance (2 * bitValue bs) unitGen := by
      rw [polyMul_act _ _ (polyPow_lt bs), ih, polyAct_advance, ih, ← advance_add, Nat.two_mul]
    cases b
    · simpa [polyPow, bitValue] using hsq
    · rw [polyPow, polyShift_act (polyMul_lt _ _ (polyPow_lt bs)), hsq, ← advance_succ_last]
      simp [bitValue, Nat.add_comm]

theorem bitValue_bitList (n k : Nat) (h : k < 2 ^ n) : bitValue (bitList n k) = k := by
  induction n generalizing k with
  | zero => simp [bitList, bitValue]; omega
  | succ n ih =>
    have hk : k / 2 < 2 ^ n := by rw [Nat.pow_succ] at h; omega
    rw [bitList, bitValue, ih _ hk]
    rcases Nat.mod_two_eq_zero_or_one k with h1 | h1 <;> simp [h1] <;> omega

/-- `F^k (1, 0)`, for `k` below `2^128`, read off `t^k`. -/
theorem advance_unitGen (k c : Nat) (hk : k < 2 ^ 128) (hc : polyPow (bitList 128 k) = c) :
    advance k unitGen = polyAct 128 c unitGen := by
  rw [← hc, polyPow_act, bitValue_bitList _ _ hk]

/-- `2^128 - 1`, the number of pairs other than `(0, 0)` (R85). -/
def fullPeriod : Nat := 2 ^ 128 - 1

theorem polyPow_fullPeriod : polyPow (bitList 128 fullPeriod) = 1 := by decide +kernel

theorem polyPow_div_3 : polyPow (bitList 128 (fullPeriod / 3)) = 0xafe8c62d2c2dbae2be1687c12f5f6c7b := by decide +kernel

theorem polyPow_div_5 : polyPow (bitList 128 (fullPeriod / 5)) = 0x7624f0e9070b45cfcff169a606d607d7 := by decide +kernel

theorem polyPow_div_17 : polyPow (bitList 128 (fullPeriod / 17)) = 0x92e5332e5515fb06fd4281ae8b20a42a := by decide +kernel

theorem polyPow_div_257 : polyPow (bitList 128 (fullPeriod / 257)) = 0x626c1967c06f3c0fb15e4f22d9721fbe := by decide +kernel

theorem polyPow_div_641 : polyPow (bitList 128 (fullPeriod / 641)) = 0x222221aeb35fd67ce54cfcb5f621d6eb := by decide +kernel

theorem polyPow_div_65537 : polyPow (bitList 128 (fullPeriod / 65537)) = 0x2df9dba84ecb581b2cfd1912eb2c6ebc := by decide +kernel

theorem polyPow_div_274177 : polyPow (bitList 128 (fullPeriod / 274177)) = 0xf8d4b5a846b8efa1cc9167b55c9bdbb7 := by decide +kernel

theorem polyPow_div_6700417 : polyPow (bitList 128 (fullPeriod / 6700417)) = 0x969e5f1ffc7915bf7334896084a09e5f := by decide +kernel

theorem polyPow_div_67280421310721 : polyPow (bitList 128 (fullPeriod / 67280421310721)) = 0x7d113aea5ca81541703620e85836c103 := by decide +kernel

/-- `F^(2^128 - 1)` takes `unitGen` back to itself (R85). -/
theorem advance_fullPeriod : advance fullPeriod unitGen = unitGen :=
  (advance_unitGen _ _ (by decide) polyPow_fullPeriod).trans (by decide +kernel)

/-- A step count whose power of `t` does not act as the identity does not return to `unitGen`. -/
theorem advance_ne_of_polyPow {k c : Nat} (hk : k < 2 ^ 128) (hc : polyPow (bitList 128 k) = c)
    (h : polyAct 128 c unitGen ≠ unitGen) : advance k unitGen ≠ unitGen := by
  rwa [advance_unitGen k c hk hc]

/-- R85's prime factors of `2^128 - 1`. -/
def periodPrimes : List Nat := [3, 5, 17, 257, 641, 65537, 274177, 6700417, 67280421310721]

/-- For no prime factor `p` of `2^128 - 1` does `F^((2^128 - 1)/p)` take `unitGen` back (R85). -/
theorem advance_div_ne : ∀ p ∈ periodPrimes, advance (fullPeriod / p) unitGen ≠ unitGen := by
  intro p hp
  simp only [periodPrimes, List.mem_cons, List.not_mem_nil, or_false] at hp
  rcases hp with rfl | rfl | rfl | rfl | rfl | rfl | rfl | rfl | rfl
  · exact advance_ne_of_polyPow (by decide) polyPow_div_3 (by decide +kernel)
  · exact advance_ne_of_polyPow (by decide) polyPow_div_5 (by decide +kernel)
  · exact advance_ne_of_polyPow (by decide) polyPow_div_17 (by decide +kernel)
  · exact advance_ne_of_polyPow (by decide) polyPow_div_257 (by decide +kernel)
  · exact advance_ne_of_polyPow (by decide) polyPow_div_641 (by decide +kernel)
  · exact advance_ne_of_polyPow (by decide) polyPow_div_65537 (by decide +kernel)
  · exact advance_ne_of_polyPow (by decide) polyPow_div_274177 (by decide +kernel)
  · exact advance_ne_of_polyPow (by decide) polyPow_div_6700417 (by decide +kernel)
  · exact advance_ne_of_polyPow (by decide) polyPow_div_67280421310721 (by decide +kernel)

/-- The largest of R85's factors is prime, by a primitive root of it. -/
theorem prime_67280421310721 : Nat.Prime 67280421310721 := by
  refine lucas_primality _ 3 (by reduce_mod_char) fun q hq hd => ?_
  have hf : 67280421310721 - 1 = 2 ^ 8 * 5 * 47 * 373 * 2998279 := by norm_num
  rw [hf] at hd
  simp only [hq.dvd_mul] at hd
  have e {r : Nat} (hr : r.Prime) (hd : q ∣ r) : q = r := (Nat.prime_dvd_prime_iff_eq hq hr).1 hd
  have hq : q = 2 ∨ q = 5 ∨ q = 47 ∨ q = 373 ∨ q = 2998279 := by
    rcases hd with (((h | h) | h) | h) | h
    · exact .inl (e (by norm_num) (hq.dvd_of_dvd_pow h))
    · exact .inr (.inl (e (by norm_num) h))
    · exact .inr (.inr (.inl (e (by norm_num) h)))
    · exact .inr (.inr (.inr (.inl (e (by norm_num) h))))
    · exact .inr (.inr (.inr (.inr (e (by norm_num) h))))
  rcases hq with rfl | rfl | rfl | rfl | rfl <;> norm_num <;> reduce_mod_char <;> decide

/-- Every prime factor of `2^128 - 1` is in R85's list. -/
theorem mem_periodPrimes {p : Nat} (hp : p.Prime) (h : p ∣ fullPeriod) : p ∈ periodPrimes := by
  have hN : fullPeriod = 3 * 5 * 17 * 257 * 641 * 65537 * 274177 * 6700417 * 67280421310721 := by decide
  rw [hN] at h
  simp only [hp.dvd_mul] at h
  simp only [periodPrimes, List.mem_cons, List.not_mem_nil, or_false]
  have q {r : Nat} (hr : r.Prime) (hd : p ∣ r) : p = r := (Nat.prime_dvd_prime_iff_eq hp hr).1 hd
  rcases h with (((((((h | h) | h) | h) | h) | h) | h) | h) | h
  · exact .inl (q (by norm_num) h)
  · exact .inr (.inl (q (by norm_num) h))
  · exact .inr (.inr (.inl (q (by norm_num) h)))
  · exact .inr (.inr (.inr (.inl (q (by norm_num) h))))
  · exact .inr (.inr (.inr (.inr (.inl (q (by norm_num) h)))))
  · exact .inr (.inr (.inr (.inr (.inr (.inl (q (by norm_num) h))))))
  · exact .inr (.inr (.inr (.inr (.inr (.inr (.inl (q (by norm_num) h)))))))
  · exact .inr (.inr (.inr (.inr (.inr (.inr (.inr (.inl (q (by norm_num) h))))))))
  · exact .inr (.inr (.inr (.inr (.inr (.inr (.inr (.inr (q prime_67280421310721 h))))))))

/-- A divisor of `n` that divides no `n / p`, `p` a prime factor of `n`, is `n`. -/
theorem eq_of_dvd_of_not_dvd_div {d n : Nat} (hn : 0 < n) (hd : d ∣ n) (h : ∀ p, p.Prime → p ∣ n → ¬ d ∣ n / p) :
    d = n := by
  obtain ⟨k, rfl⟩ := hd
  by_contra hne
  have hk : k ≠ 1 := fun hk => hne (by rw [hk, Nat.mul_one])
  obtain ⟨p, hp, j, rfl⟩ := Nat.exists_prime_and_dvd hk
  refine h p hp ⟨d * j, by ring⟩ ⟨j, ?_⟩
  exact Nat.div_eq_of_eq_mul_right hp.pos (by ring)

/-- Iterated from `(1, 0)`, `F` first returns after exactly `2^128 - 1` steps (R85). -/
theorem minimalPeriod_unitGen : Function.minimalPeriod transition unitGen = fullPeriod := by
  refine eq_of_dvd_of_not_dvd_div (by decide) ?_ fun p hp hd hdiv => ?_
  · exact Function.IsPeriodicPt.minimalPeriod_dvd ((advance_eq_iterate _ _).symm.trans advance_fullPeriod)
  · refine advance_div_ne p (mem_periodPrimes hp hd) ?_
    rw [advance_eq_iterate]
    exact Function.isPeriodicPt_iff_minimalPeriod_dvd.2 hdiv

/-- An injective function on a finite type that fixes `z` and whose cycle through `u` is long enough to hold everything
else: that cycle reaches every element but `z`. -/
theorem exists_iterate_eq {α : Type} [Fintype α] [DecidableEq α] {f : α → α} (hf : Function.Injective f) {u z : α}
    (hz : f z = z) (hu : u ≠ z) (hp : Fintype.card α ≤ Function.minimalPeriod f u + 1) {g : α} (hg : g ≠ z) :
    ∃ k < Function.minimalPeriod f u, f^[k] u = g := by
  have hne : ∀ k, f^[k] u ≠ z := fun k h0 => hu (hf.iterate k (h0.trans (Function.iterate_fixed hz k).symm))
  have hcard := Finset.card_image_of_injOn (s := Finset.range (Function.minimalPeriod f u)) (f := fun k => f^[k] u)
    fun a ha b hb hab => Function.iterate_injOn_Iio_minimalPeriod (by simpa using ha) (by simpa using hb) hab
  rw [Finset.card_range] at hcard
  have hsub : (Finset.range (Function.minimalPeriod f u)).image (fun k => f^[k] u) ⊆ Finset.univ.erase z := by
    intro x hx
    obtain ⟨k, -, rfl⟩ := Finset.mem_image.1 hx
    exact Finset.mem_erase.2 ⟨hne k, Finset.mem_univ _⟩
  have heq := Finset.eq_of_subset_of_card_le hsub (by
    rw [hcard, Finset.card_erase_of_mem (Finset.mem_univ _), Finset.card_univ]
    omega)
  have hm : g ∈ (Finset.range (Function.minimalPeriod f u)).image (fun k => f^[k] u) := by
    rw [heq]
    exact Finset.mem_erase.2 ⟨hg, Finset.mem_univ _⟩
  obtain ⟨k, hk, e⟩ := Finset.mem_image.1 hm
  exact ⟨k, Finset.mem_range.1 hk, e⟩

/-- There are `2^64` words. -/
theorem card_word : Fintype.card Word = 2 ^ 64 := by
  rw [Fintype.card_congr (BitVec.equivFin (m := 64)).toEquiv, Fintype.card_fin]

/-- The full period is one less than the number of pairs (R85). -/
theorem card_gen : Fintype.card Gen = fullPeriod + 1 := by
  rw [Fintype.card_prod, card_word]
  rfl

end Sys2Proof.Machine
end

