-- ==== Sys2Proof/Laws/Step.lean ====
section
/-! SUPPORT. Once for the step: everything it can do. -/

namespace Sys2Proof.Machine

/-- A command abandoned by reset (R191): reset is taken, after some of a fill's byte writes, if it is one. -/
theorem abandon_case (i : Instr) (s : State) :
    abandon i s = .refused .unbackedMemory ∨
      ∃ ws, (∀ c ∈ ws, c.1 < 2 ^ 64) ∧ abandon i s = .next (s.setMem (memWriteAll s.mem ws)).takeReset := by
  have plain : ∃ ws : List Host.Cell, (∀ c ∈ ws, c.1 < 2 ^ 64) ∧
      (.next s.takeReset : Host.Outcome State Fault Refusal) = .next (s.setMem (memWriteAll s.mem ws)).takeReset :=
    ⟨[], by simp, rfl⟩
  cases i with
  | fill a len =>
    change abandonFill a len s = _ ∨ ∃ ws, _ ∧ abandonFill a len s = _
    unfold abandonFill
    split
    · exact .inr plain
    · split
      · exact .inr plain
      · rename_i hw
        split
        · exact .inl rfl
        · refine .inr ⟨_, fun c hc => ?_, rfl⟩
          have h1 := (bufWraps_eq_false_iff a len).1 (by simpa using hw)
          have h2 := mem_fillRun (List.mem_of_mem_take hc)
          omega
  | _ => exact .inr plain

/-! What one step does, by what the host presents (R10, R60). -/

theorem step_nil {s : State} (h : s.inputs = []) : step s = .next s := by
  unfold step; rw [h]

theorem step_command {s : State} {w : CmdWord} {rest : List Input} (h : s.inputs = .command w :: rest) :
    step s = runWord w (s.accept rest) := by
  unfold step; rw [h]

theorem step_reset {s : State} {rest : List Input} (h : s.inputs = .reset :: rest) :
    step s = .next (s.accept rest).takeReset := by
  unfold step; rw [h]

theorem step_resetDuring {s : State} {w : CmdWord} {rest : List Input} (h : s.inputs = .resetDuring w :: rest) :
    step s = abandonWord w (s.accept rest) := by
  unfold step; rw [h]

/-- A word is a command or an undefined opcode (R64, R67). -/
theorem runWord_case (w : CmdWord) (s : State) :
    (∃ i, decode w = .command i ∧ runWord w s = exec i s) ∨
      decode w = .illegal ∧ runWord w s = .next (s.raise .illegal) := by
  unfold runWord
  cases decode w with
  | command i => exact .inl ⟨i, rfl, rfl⟩
  | illegal => exact .inr ⟨rfl, rfl⟩

/-- A word abandoned by reset (R191). -/
theorem abandonWord_case (w : CmdWord) (s : State) :
    abandonWord w s = .refused .unbackedMemory ∨
      ∃ ws, (∀ c ∈ ws, c.1 < 2 ^ 64) ∧ abandonWord w s = .next (s.setMem (memWriteAll s.mem ws)).takeReset := by
  unfold abandonWord
  cases decode w with
  | command i => exact abandon_case i s
  | illegal => exact .inr ⟨[], by simp, rfl⟩

/-- Where a step can lead (R10, R60, R190, R191). -/
inductive StepCase (s : State) : State → Prop
  /-- The block is idle. -/
  | idle (h : s.inputs = []) : StepCase s s
  /-- A word with an undefined opcode. -/
  | undefined (w : CmdWord) (rest : List Input) (h : s.inputs = .command w :: rest)
      (hd : decode w = .illegal) : StepCase s ((s.accept rest).raise .illegal)
  /-- A command. -/
  | command (w : CmdWord) (rest : List Input) (i : Instr) (t : State) (h : s.inputs = .command w :: rest)
      (hd : decode w = .command i) (he : exec i (s.accept rest) = .next t) : StepCase s t
  /-- Reset, between commands or during one, after the byte writes `ws`. -/
  | reset (inp : Input) (rest : List Input) (ws : List Host.Cell) (h : s.inputs = inp :: rest) (hr : inp.isReset = true)
      (hw : ∀ c ∈ ws, c.1 < 2 ^ 64) : StepCase s ((s.accept rest).setMem (memWriteAll s.mem ws)).takeReset

/-- Everything a step that answers a next state can have done. -/
theorem step_next_case {s t : State} (h : step s = .next t) : StepCase s t := by
  cases hi : s.inputs with
  | nil => rw [step_nil hi] at h; cases h; exact .idle hi
  | cons inp rest =>
    cases inp with
    | command w =>
      rw [step_command hi] at h
      rcases runWord_case w (s.accept rest) with ⟨i, hd, he⟩ | ⟨hd, he⟩
      · exact .command w rest i t hi hd (he ▸ h)
      · rw [he] at h; cases h; exact .undefined w rest hi hd
    | reset => rw [step_reset hi] at h; cases h; exact .reset _ rest [] hi rfl (by simp)
    | resetDuring w =>
      rw [step_resetDuring hi] at h
      rcases abandonWord_case w (s.accept rest) with he | ⟨ws, hw, he⟩
      · rw [he] at h; cases h
      · rw [he] at h; cases h; exact .reset _ rest ws hi rfl hw

/-! A run of the machine (R201), one step at a time. -/

theorem run_zero (s : State) : core.run 0 s = .next s := rfl

/-- A run goes on from the state its first step leads to. -/
theorem run_succ_of_next {s t : State} (h : step s = .next t) (k : Nat) : core.run (k + 1) s = core.run k t := by
  have h' : core.step s = .next t := h
  simp only [Host.Core.run, h']

/-- Two states whose first steps are the same run alike. -/
theorem run_succ_congr {s t : State} (h : step s = step t) (k : Nat) : core.run (k + 1) s = core.run (k + 1) t := by
  have h' : core.step s = core.step t := h
  simp only [Host.Core.run, h']

end Sys2Proof.Machine
end

