-- ==== Sys2Proof/Tests/Slice0.lean ====
section
/-! SUPPORT. The model's own tests: the static checks, decoding of words written out from R61 and R63, one step of each command
against the vectors of spec/95_test_vectors.md, and for every claim with hypotheses a case that meets them all. Every expected
number is the spec's. -/

namespace Sys2Proof.Tests

open Sys2Proof.Machine

/-! Helpers. -/

/-- A platform that backs the whole address space. -/
def wholePlatform : State := { State.reset with backed := [⟨0, 2 ^ 64⟩] }

/-- `S0` of spec/95. -/
def stateS0 : State := { wholePlatform with x := 0x0123456789ABCDEF, y := 0xFEDCBA9876543210, seeded := true }

/-- The state after one draw from `S0`. -/
def stateS1 : State := { wholePlatform with x := 0xFEDCA543E1073CDA, y := 0x20DEFC12B947658B, seeded := true }

/-- The state `(1, 0)` of spec/95. -/
def stateOne : State := { wholePlatform with x := 1, y := 0, seeded := true }

/-- The state before a seed, `X` and `Y` at a given value. -/
def unseededAt (x y : Word) : State := { wholePlatform with x := x, y := y }

/-- The platform backs one kilobyte from `0x1000` up. -/
def smallPlatform (s : State) : State := { s with backed := [⟨0x1000, 0x400⟩] }

/-- What the host receives, and the state after: `X`, `Y`, `SEEDED`. -/
def answer (o : Host.Outcome State Fault Refusal) : Option (List RspWord × Word × Word × Bool) :=
  match o with
  | .next t => some (responseWords t, t.x, t.y, t.seeded)
  | .fault _ => none
  | .refused _ => none

/-- The memory after. -/
def memoryAfter (o : Host.Outcome State Fault Refusal) : Option (List Host.Cell) :=
  match o with
  | .next t => some t.mem
  | .fault _ => none
  | .refused _ => none

/-- The outcome is a next state. -/
def goesOn (o : Host.Outcome State Fault Refusal) : Bool :=
  match o with
  | .next _ => true
  | .fault _ => false
  | .refused _ => false

/-- An outcome that goes on is a next state. -/
theorem exists_next {o : Host.Outcome State Fault Refusal} (h : goesOn o = true) : ∃ t, o = .next t := by
  cases o with
  | next t => exact ⟨t, rfl⟩
  | fault r => cases h
  | refused r => cases h

/-! The static checks, with a term each refuses (R6, R61, R62). -/

theorem test_operandFits_refuses : operandFits (2 ^ 64) = false ∧ operandFits (2 ^ 64 - 1) = true := by decide

theorem test_opcodeFits_refuses : opcodeFits 0x100 = false ∧ opcodeFits 0xFF = true := by decide

theorem test_fallbackOk_refuses : fallbackOk (0, 0) = false ∧ fallbackOk (1, 0) = true := by decide

/-- The assembler refuses an operand that does not fit, and a missing operand. -/
theorem test_assembler_refuses :
    assembleLine "SEED 0x10000000000000000".toList = .malformed ∧ assembleLine "BTW 1".toList = .malformed ∧
      assembleLine ".word 0x100, 0, 0".toList = .malformed := by decide

/-- Every command is well formed; only text can be ill-formed. -/
theorem test_wellFormed : (Instr.btw 6 1).wellFormed = true := by decide

/-! Decoding, by words written out bit by bit from R61 and R63: `op` in bits 135:128, `a` in 127:64, `b` in 63:0. -/

theorem test_decode_lds : decode 0x01_0000000000000007_0000000000000009 = .command (.lds 7 9) := by decide

theorem test_decode_seed : decode 0x02_000000000000002A_0000000000000000 = .command (.seed 0x2A) := by decide

theorem test_decode_getx : decode 0x03_0000000000000000_0000000000000000 = .command .getx := by decide

theorem test_decode_gety : decode 0x04_0000000000000000_0000000000000000 = .command .gety := by decide

theorem test_decode_stat : decode 0x05_0000000000000000_0000000000000000 = .command .stat := by decide

theorem test_decode_u64 : decode 0x10_DEADBEEFDEADBEEF_0123456789ABCDEF = .command .u64 := by decide

theorem test_decode_btw : decode 0x11_0000000000000001_0000000000000006 = .command (.btw 1 6) := by decide

theorem test_decode_f64 : decode 0x12_0000000000000000_0000000000000000 = .command .f64 := by decide

theorem test_decode_fill : decode 0x13_0000000000001000_000000000000000B = .command (.fill 0x1000 11) := by decide

/-- spec/95 section 7: the undefined opcodes at the ends of their ranges. -/
theorem test_decode_illegal :
    decode 0x00_0000000000000000_0000000000000000 = .illegal ∧
      decode 0x06_0000000000000000_0000000000000000 = .illegal ∧
      decode 0x0F_FFFFFFFFFFFFFFFF_FFFFFFFFFFFFFFFF = .illegal ∧
      decode 0x14_0000000000000000_0000000000000000 = .illegal ∧
      decode 0xFF_0000000000000000_0000000000000000 = .illegal := by decide

theorem test_encode_btw : encode (.btw 1 6) = 0x11_0000000000000001_0000000000000006 := by decide

/-- R69: assembler text, with a comment, blanks, an underscore and both number bases. -/
theorem test_assemble :
    assembleLine "FILL  0x1_000,11 ; bytes".toList = .word 0x13_0000000000001000_000000000000000B ∧
      assembleLine ".word 0x20, 1, 2".toList = .word 0x20_0000000000000001_0000000000000002 := by decide

/-! One step of each command (spec/95 sections 2 to 7). -/

/-- Section 3: `LDS 0, 0` is refused after reset. -/
theorem test_lds_zero :
    answer (step ((unseededAt 3 4).present 0x01_0000000000000000_0000000000000000)) =
      some ([0x04_0000000000000000], 3, 4, false) := by decide

/-- Section 3: `LDS 7, 9`. -/
theorem test_lds :
    answer (step (stateOne.present 0x01_0000000000000007_0000000000000009)) =
      some ([0x00_0000000000000000], 7, 9, true) := by decide

/-- R103 and section 3, the reference instantiation: seed `0x2A`. -/
theorem test_seed_reference : seedExpandRef 0x2A = (0xBDD732262FEB6E95, 0x28EFE333B266F103) := by decide

/-- Section 3: where the expansion is `(0, 0)` the fallback is established. -/
theorem test_seed_fallback :
    answer (execSeedWith (fun _ => (0, 0)) seedFallbackRef 5 State.reset) = some ([0x00_0000000000000000], 1, 0, true) := by
  decide

theorem test_getx :
    answer (step (stateS0.present 0x03_0000000000000000_0000000000000000)) =
      some ([0x00_0123456789ABCDEF], 0x0123456789ABCDEF, 0xFEDCBA9876543210, true) := by decide

theorem test_gety_unseeded :
    answer (step ((unseededAt 3 4).present 0x04_0000000000000000_0000000000000000)) =
      some ([0x02_0000000000000000], 3, 4, false) := by decide

/-- Program P1 of section 9. -/
theorem test_stat :
    answer (step (stateOne.present 0x05_0000000000000000_0000000000000000)) =
      some ([0x00_0000000000000001], 1, 0, true) := by decide

/-- Section 7: the ignored fields have no effect. -/
theorem test_u64 :
    answer (step (stateS0.present 0x10_DEADBEEFDEADBEEF_0123456789ABCDEF)) =
      some ([0x00_0FE0FD6B78CEC06B], 0xFEDCA543E1073CDA, 0x20DEFC12B947658B, true) := by decide

/-- Section 2: the pair of all ones, where the addition of `G` wraps. -/
theorem test_temper_wraps : temper (0xFFFFFFFFFFFFFFFF, 0xFFFFFFFFFFFFFFFF) = 0xFFFFFFFFFFFFFFFE := by decide

/-- Section 4, row B10: `frac` below `span` but not below `t`. -/
theorem test_btw_threshold :
    answer (step (stateS0.present 0x11_0000000000000001_FFFFFFFFFFFFFFFF)) =
      some ([0x00_0FE0FD6B78CEC06B], 0xFEDCA543E1073CDA, 0x20DEFC12B947658B, true) := by decide

/-- Section 4, the second of six calls: the first draw is rejected. -/
theorem test_btw_rejects :
    answer (step (stateS1.present 0x11_0000000000000000_8000000000000000)) =
      some ([0x00_600AF9C154AC44E3], 0xE89D05A86762CA9F, 0x030FC238114DD9C7, true) := by decide

/-- R144's worked example. -/
theorem test_f64 :
    answer (step (stateS0.present 0x12_0000000000000000_0000000000000000)) =
      some ([0x00_3FAFC1FAD6F19D80], 0xFEDCA543E1073CDA, 0x20DEFC12B947658B, true) := by decide

/-- Section 5: zero, the smallest and the largest result. -/
theorem test_quantize_ends :
    quantize 0x7FF = 0 ∧ quantize 0x800 = 0x3CA0000000000000 ∧ quantize 0xFFFFFFFFFFFFFFFF = 0x3FEFFFFFFFFFFFFF := by
  decide

/-- R142: bit 63 of a pattern is its sign. -/
theorem test_f64Value_sign : f64Value 0xBFE0000000000000 = -1 / 2 ∧ f64Value 0x3FE0000000000000 = 1 / 2 := by
  decide +kernel

/-- R157's worked example, the bytes. -/
theorem test_fill_bytes :
    memoryAfter (step (stateS0.present 0x13_0000000000001000_000000000000000B)) =
      some [(0x1000, 0x6B), (0x1001, 0xC0), (0x1002, 0xCE), (0x1003, 0x78), (0x1004, 0x6B), (0x1005, 0xFD), (0x1006, 0xE0),
        (0x1007, 0x0F), (0x1008, 0xFB), (0x1009, 0x83), (0x100A, 0x29)] := by decide

/-- Section 7: `BUF_WRAP`, nothing written. -/
theorem test_fill_wraps :
    answer (step (stateS0.present 0x13_FFFFFFFFFFFFFFFF_0000000000000002)) =
      some ([0x05_0000000000000000], 0x0123456789ABCDEF, 0xFEDCBA9876543210, true) := by decide

/-- Section 6: the last address of the space may be written. -/
theorem test_fill_top :
    goesOn (step (stateS0.present 0x13_FFFFFFFFFFFFFFFC_0000000000000004)) = true := by decide

/-- R45: an unbacked address has no meaning. -/
theorem test_fill_unbacked :
    exec (.fill 0x13FF 2) (smallPlatform stateS0) = .refused .unbackedMemory := rfl

/-! A case for the hypotheses of every claim that has any: the state and the operands meet all of them together. Where a claim
has several clauses there is a case for each, at the ends of its range. -/

/-- The state with these inputs presented. -/
def facing (s : State) (inputs : List Input) : State := { s with inputs := inputs }

theorem witness_UndefinedOpcodesAnswerIllegal :
    (facing stateS0 [.command 0x14_0000000000000000_0000000000000000]).inputs =
        .command 0x14_0000000000000000_0000000000000000 :: [] ∧
      decode 0x14_0000000000000000_0000000000000000 = .illegal := by
  decide

theorem witness_StepRunsDecodedCommand :
    (facing stateS0 [.command 0x11_0000000000000001_0000000000000006, .reset]).inputs =
        .command 0x11_0000000000000001_0000000000000006 :: [.reset] ∧
      decode 0x11_0000000000000001_0000000000000006 = .command (.btw 1 6) := by decide

theorem witness_IdleStepChangesNothing : State.reset.inputs = [] := rfl

theorem witness_ResetStep : (facing stateS0 [.reset, .reset]).inputs = .reset :: [.reset] := rfl

/-- A `FILL` in progress, on a backed region; and one whose region wraps. -/
theorem witness_ResetInFlight_fill :
    (facing stateS0 [.resetDuring 0x13_0000000000001000_000000000000000B]).inputs =
        .resetDuring 0x13_0000000000001000_000000000000000B :: [] ∧
      decode 0x13_0000000000001000_000000000000000B = .command (.fill 0x1000 11) ∧
      regionBacked stateS0.backed 0x1000 11 = true ∧
      decode 0x13_FFFFFFFFFFFFFFFF_0000000000000002 = .command (.fill 0xFFFFFFFFFFFFFFFF 2) ∧
      ¬ (0xFFFFFFFFFFFFFFFF + 2 ≤ 2 ^ 64) := by decide

/-- Another command in progress. -/
theorem witness_ResetInFlight_other (a len : Word) :
    (facing stateS0 [.resetDuring 0x10_0000000000000000_0000000000000000]).inputs =
        .resetDuring 0x10_0000000000000000_0000000000000000 :: [] ∧
      decode 0x10_0000000000000000_0000000000000000 ≠ .command (.fill a len) :=
  ⟨rfl, fun h => by
    rw [show decode 0x10_0000000000000000_0000000000000000 = .command .u64 by decide] at h
    cases h⟩

theorem witness_ResetLeavesUnseeded : (Instr.btw 6 1 = .getx ∨ ∃ lo hi, Instr.btw 6 1 = .btw lo hi) := .inr ⟨6, 1, rfl⟩

theorem witness_StepTakesOneInput :
    ∃ t, step (facing stateS0 [.command 0x13_0000000000001000_000000000000000B, .reset]) = .next t :=
  exists_next (by decide)

theorem witness_StepKeepsNonZeroState :
    (stateOne.seeded = true → stateOne.pair ≠ (0, 0)) ∧
      ∃ t, step (facing stateOne [.command 0x10_0000000000000000_0000000000000000]) = .next t :=
  ⟨by decide, exists_next (by decide)⟩

/-- A state with a byte written, and a step that writes more. -/
theorem witness_StepKeepsMemoryForm :
    memWf [(0x1001, 0x55)] = true ∧
      ∃ t, step (facing (stateS0.setMem [(0x1001, 0x55)]) [.command 0x13_0000000000001000_0000000000000003]) = .next t :=
  ⟨by decide, exists_next (by decide)⟩

/-- `SEEDED` cleared by reset. -/
theorem witness_SeededCleared :
    ∃ t, step (facing stateS0 [.reset]) = .next t ∧ stateS0.seeded = true ∧ t.seeded = false := ⟨_, rfl, rfl, rfl⟩

/-- `SEEDED` set by `LDS` and by `SEED`. -/
theorem witness_SeededSet :
    (∃ t, step (facing State.reset [.command 0x01_0000000000000000_0000000000000001]) = .next t ∧
        State.reset.seeded = false ∧ t.seeded = true) ∧
      ∃ t, step (facing State.reset [.command 0x02_0000000000000000_0000000000000000]) = .next t ∧ t.seeded = true :=
  ⟨⟨_, rfl, rfl, rfl⟩, ⟨_, rfl, rfl⟩⟩

theorem witness_FailingCommandChangesNothing :
    (∃ t, runWord 0x11_0000000000000006_0000000000000001 stateS0 = .next t ∧
        t.responses = stateS0.responses ++ [⟨.range, 0⟩]) ∧
      (∃ t, runWord 0x00_0000000000000000_0000000000000000 stateS0 = .next t ∧
        t.responses = stateS0.responses ++ [⟨.illegal, 0⟩]) ∧ Status.range ≠ .ok :=
  ⟨⟨_, rfl, rfl⟩, ⟨_, rfl, rfl⟩, by decide⟩

/-- Two states that differ in `X` and `Y` while `SEEDED = 0`. -/
theorem witness_UnseededRegistersAreInvisible :
    SameToHost (facing (unseededAt 1 2) [.command 0x03_0000000000000000_0000000000000000])
        (facing (unseededAt 3 4) [.command 0x03_0000000000000000_0000000000000000]) ∧ unseededAt 1 2 ≠ unseededAt 3 4 :=
  ⟨⟨rfl, fun h => Bool.noConfusion h, rfl, rfl, rfl, rfl, rfl⟩, fun h => absurd (congrArg State.x h) (by decide)⟩

theorem witness_BlockNeverReadsMemory :
    SameButMemory (facing (stateS0.setMem [(5, 0xAA)]) [.command 0x13_0000000000000004_0000000000000001])
      (facing stateS0 [.command 0x13_0000000000000004_0000000000000001]) := rfl

/-- Each clause of the order of checks: an undefined opcode with no state; bad operands with no state; bad operands with a
state, at the end of their range. -/
theorem witness_OrderOfChecks :
    decode 0x0F_FFFFFFFFFFFFFFFF_FFFFFFFFFFFFFFFF = .illegal ∧ (unseededAt 1 2).seeded = false ∧
      stateS0.seeded = true ∧ (5 : Word) < 6 ∧ 2 ^ 64 < (0xFFFFFFFFFFFFFFFF : Word).toNat + (2 : Word).toNat := by decide

/-- The last clause: the ends of what `LDS` loads. -/
theorem witness_OrderOfChecks_lds : ((0, 1) : Gen) ≠ (0, 0) ∧ ((0xFFFFFFFFFFFFFFFF, 0) : Gen) ≠ (0, 0) := by decide

/-- Every command of the read and register frames completes from `S0`. -/
theorem witness_Frames :
    goesOn (exec .getx stateS0) && goesOn (exec .gety stateS0) && goesOn (exec .stat stateS0) &&
      goesOn (exec (.lds 7 9) stateS0) && goesOn (exec (.seed 5) stateS0) && goesOn (exec .u64 stateS0) &&
      goesOn (exec .f64 stateS0) && goesOn (exec (.btw 1 6) stateS0) = true := by decide

/-- A fill that ends at the top of the address space, with addresses below the region. -/
theorem witness_FillFrame :
    (∃ t, exec (.fill 0xFFFFFFFFFFFFFFFC 4) stateS0 = .next t) ∧ 0 < (0xFFFFFFFFFFFFFFFC : Word).toNat :=
  ⟨exists_next (by decide), by decide⟩

/-- For every clause of the draw counts a command that answers `OK`. -/
theorem witness_DrawCounts :
    (∃ t, exec .gety stateOne = .next t ∧ t.responses = stateOne.responses ++ [⟨.ok, 0⟩]) ∧
      (∃ t, exec .u64 stateOne = .next t ∧ t.responses = stateOne.responses ++ [⟨.ok, 1⟩]) ∧
      (∃ t, exec .f64 stateOne = .next t ∧ t.responses = stateOne.responses ++ [⟨.ok, 0⟩]) ∧
      (∃ t, exec (.btw 5 5) stateOne = .next t ∧ t.responses = stateOne.responses ++ [⟨.ok, 5⟩]) ∧
      (∃ t, exec (.fill 0 3) stateOne = .next t ∧ t.responses = stateOne.responses ++ [⟨.ok, 0⟩]) ∧
      (∃ t, exec (.lds 7 9) stateOne = .next t ∧ t.responses = stateOne.responses ++ [⟨.ok, 0⟩]) ∧
      ∃ t, exec (.seed 5) stateOne = .next t ∧ t.responses = stateOne.responses ++ [⟨.ok, 0⟩] :=
  ⟨⟨_, rfl, rfl⟩, ⟨_, rfl, rfl⟩, ⟨_, rfl, rfl⟩, ⟨_, rfl, rfl⟩, ⟨_, rfl, rfl⟩, ⟨_, rfl, rfl⟩, ⟨_, rfl, rfl⟩⟩

/-- Both premises on `SEEDED` of `U64DrawsOneWord`, `F64DrawsOneWord` and `GetReadsRegister`. -/
theorem witness_Seeded : stateS0.seeded = true ∧ State.reset.seeded = false := ⟨rfl, rfl⟩

/-- A start of the cycle, and another pair on it. -/
theorem witness_FullPeriod : ((1, 0) : Gen) ≠ (0, 0) ∧ ((0, 1) : Gen) ≠ (0, 0) ∧ 0 < 1 ∧ 1 < 2 ^ 128 - 1 := by decide

/-- Both arms: the word 0 and another. -/
theorem witness_Equidistribution : ((1, 0) : Gen) ≠ (0, 0) ∧ (0 : Word) = 0 ∧ (1 : Word) ≠ 0 := by decide

theorem witness_SequenceLaw :
    stateOne.seeded = true ∧ (facing stateOne (List.replicate 2 (.command (encode .u64)) ++ [.reset])).inputs =
      List.replicate 2 (.command (encode .u64)) ++ [.reset] := ⟨rfl, rfl⟩

theorem witness_LdsLoadsNonZeroPair : ((0, 1) : Gen) ≠ (0, 0) ∧ ((1, 0) : Gen) ≠ (0, 0) := by decide

/-- Two states that differ in the pair, given the same `LDS`. -/
theorem witness_SeedingIsDeterministic :
    facing (unseededAt 3 4) [.command (encode (.lds 0 1))] =
        { facing stateS0 [.command (encode (.lds 0 1))] with
          x := (unseededAt 3 4).x, y := (unseededAt 3 4).y, seeded := (unseededAt 3 4).seeded } ∧
      ((0, 1) : Gen) ≠ (0, 0) ∧ (facing stateS0 [.command (encode (.lds 0 1))]).inputs = .command (encode (.lds 0 1)) :: [] :=
  ⟨rfl, by decide, rfl⟩

theorem witness_BtwFullRange : (0 : Word) ≤ 0xFFFFFFFFFFFFFFFF ∧ (1 : Word) ≤ 0xFFFFFFFFFFFFFFFF ∧ stateS0.seeded = true := by
  decide

theorem witness_BtwEqualBounds : stateS0.seeded = true := rfl

/-- spec/95 section 4: the second draw is the first that is accepted, at span `2^63 + 1`. -/
theorem witness_BtwClosedForm_rejects :
    stateS1.seeded = true ∧ (0 : Word) ≤ 0x8000000000000000 ∧ 0x8000000000000000 - 0 + 1 < 2 ^ 64 ∧
      (rawWord stateS1.pair 1).toNat * (0x8000000000000000 - 0 + 1) % 2 ^ 64 < 2 ^ 64 % (0x8000000000000000 - 0 + 1) ∧
      2 ^ 64 % (0x8000000000000000 - 0 + 1) ≤ (rawWord stateS1.pair 2).toNat * (0x8000000000000000 - 0 + 1) % 2 ^ 64 := by
  decide

/-- The largest span below the full range, one draw (row B10). -/
theorem witness_BtwClosedForm_largest :
    stateS0.seeded = true ∧ (1 : Word) ≤ 0xFFFFFFFFFFFFFFFF ∧ 0xFFFFFFFFFFFFFFFF - 1 + 1 < 2 ^ 64 ∧
      2 ^ 64 % (0xFFFFFFFFFFFFFFFF - 1 + 1) ≤
        (rawWord stateS0.pair 1).toNat * (0xFFFFFFFFFFFFFFFF - 1 + 1) % 2 ^ 64 := by decide

/-- spec/95 section 4 again, as the sampler's claims say it: from `S1` the second draw is the first that is accepted; for the full
range the first is (row B7). -/
theorem witness_FirstAccepted :
    FirstAccepted 0 0x8000000000000000 stateS1.pair 2 ∧ FirstAccepted 0 0xFFFFFFFFFFFFFFFF stateS0.pair 1 := by
  refine ⟨⟨by decide, fun j h1 h2 => ?_, by decide⟩, ⟨by decide, fun j h1 h2 => by omega, by decide⟩⟩
  obtain rfl : j = 1 := by omega
  decide

theorem witness_BtwValueInRange :
    stateS1.seeded = true ∧ (0 : Word) ≤ 0x8000000000000000 ∧ ∃ t, exec (.btw 0 0x8000000000000000) stateS1 = .next t :=
  ⟨rfl, by decide, exists_next (by decide)⟩

theorem witness_BtwIsUnbiased : (5 : Word) < 6 ∧ (0 : Word) < 1 ∧ (0xFFFFFFFFFFFFFFFE : Word) < 0xFFFFFFFFFFFFFFFF := by decide

theorem witness_RejectionThreshold : (1 : Word) ≠ 0 ∧ (0x8000000000000001 : Word) ≠ 0 ∧ (0xFFFFFFFFFFFFFFFF : Word) ≠ 0 := by
  decide

theorem witness_BtwAlwaysEnds :
    stateOne.seeded = true ∧ stateOne.pair ≠ (0, 0) ∧ (0 : Word) ≤ 0x8000000000000000 ∧ (7 : Word) ≤ 7 := by decide

/-- The smallest, the largest and a middle `k`; and `k = 0`. -/
theorem witness_QuantizerPattern :
    (0 : Word).toNat < 2 ^ 53 ∧ 2 ^ 0 ≤ (1 : Word).toNat ∧ (1 : Word).toNat < 2 ^ (0 + 1) ∧
      2 ^ 52 ≤ (0x001FFFFFFFFFFFFF : Word).toNat ∧ (0x001FFFFFFFFFFFFF : Word).toNat < 2 ^ (52 + 1) := by decide

theorem witness_QuantizerIsUniform : 0 < 2 ^ 53 ∧ 2 ^ 53 - 1 < 2 ^ 53 := by decide

/-- Both sides of the refusal: a region with one unbacked address at its end. -/
theorem witness_FillRefusesUnbacked :
    (smallPlatform stateS0).seeded = true ∧ 0x13FF + 2 ≤ 2 ^ 64 ∧ 1 < 2 ∧
      isBacked (smallPlatform stateS0).backed (0x13FF + 1) = false := by decide

/-- A fill at the end of what the platform backs, with a tail. -/
theorem witness_FillLaw :
    (smallPlatform stateS0).seeded = true ∧ (0x13F5 : Word).toNat + (11 : Word).toNat ≤ 2 ^ 64 ∧
      (∀ i < 11, isBacked (smallPlatform stateS0).backed (0x13F5 + i) = true) ∧ 0 < (11 : Word).toNat := by decide

theorem witness_EmptyFill : stateS0.seeded = true := rfl

theorem witness_FillWritesAscend :
    stateS0.seeded = true ∧ (0xFFFFFFFFFFFFFFFC : Word).toNat + (4 : Word).toNat ≤ 2 ^ 64 ∧
      ∃ t, exec (.fill 0xFFFFFFFFFFFFFFFC 4) stateS0 = .next t := ⟨rfl, by decide, exists_next (by decide)⟩

theorem witness_FillBytesIgnoreAddress :
    stateS0.seeded = true ∧ (0x1003 : Word).toNat + (9 : Word).toNat ≤ 2 ^ 64 ∧ (0 : Word).toNat + (9 : Word).toNat ≤ 2 ^ 64 ∧
      (∃ t, exec (.fill 0x1003 9) stateS0 = .next t) ∧ ∃ u, exec (.fill 0 9) stateS0 = .next u :=
  ⟨rfl, by decide, by decide, exists_next (by decide), exists_next (by decide)⟩

/-- spec/95 section 6: `FILL a, 8` then `FILL a+8, 3` beside `FILL a, 11`. -/
theorem witness_FillSplitsAtChunks :
    (8 : Word).toNat % 8 = 0 ∧ (11 : Word).toNat = (8 : Word).toNat + (3 : Word).toNat ∧
      (0x1008 : Word).toNat = (0x1000 : Word).toNat + (8 : Word).toNat ∧ (0x1000 : Word).toNat + (11 : Word).toNat ≤ 2 ^ 64 ∧
      (∃ t, exec (.fill 0x1000 8) stateS0 = .next t ∧ ∃ u, exec (.fill 0x1008 3) t = .next u) ∧
      ∃ v, exec (.fill 0x1000 11) stateS0 = .next v :=
  ⟨by decide, by decide, by decide, by decide, ⟨_, rfl, exists_next (by decide)⟩, exists_next (by decide)⟩

/-- Two chunks, and the run of two `U64` commands. -/
theorem witness_FillEqualsU64s :
    stateS0.seeded = true ∧ (16 : Word).toNat = 8 * 2 ∧ (0x1000 : Word).toNat + (16 : Word).toNat ≤ 2 ^ 64 ∧
      (∃ t, exec (.fill 0x1000 16) stateS0 = .next t) ∧
      ∃ u, core.run 2 { stateS0 with inputs := List.replicate 2 (.command (encode .u64)), responses := [] } = .next u :=
  ⟨rfl, by decide, by decide, exists_next (by decide), ⟨_, rfl⟩⟩

end Sys2Proof.Tests
end

section
/-! The obligations of 00_scope.md: a step takes one input, and runs the command it decodes to. -/

namespace Sys2Proof.Machine

/-- A word that decodes to a command runs it (R67). -/
theorem runWord_of_decode {w : CmdWord} {i : Instr} (hd : decode w = .command i) (s : State) : runWord w s = exec i s := by
  unfold runWord
  rw [hd]

/-- Settles O12, by cases on what the step did; for a command, `exec_frame` says what it leaves. -/
theorem stepTakesOneInput : Obligations.StepTakesOneInput := by
  intro s t h
  cases step_next_case h with
  | idle hi => simp [hi]
  | undefined w rest hi hd => simp [hi]
  | command w rest i t hi hd he =>
    obtain ⟨hinputs, hbacked, -⟩ := exec_frame he
    simp [hi, hinputs, hbacked]
  | reset inp rest ws hi hr hw => simp [hi]

/-- Settles O7: a presented word runs as its command, in the state with that input taken. -/
theorem stepRunsDecodedCommand : Obligations.StepRunsDecodedCommand := by
  intro s w rest i hi hd
  calc step s = runWord w (s.accept rest) := step_command hi
    _ = exec i (s.accept rest) := runWord_of_decode hd _

end Sys2Proof.Machine
end

section
/-! The obligations of 10_state.md: the invariant of R21, how `SEEDED` changes (R23), what the host sees of `X` and `Y` (R24),
reset (R30) and the frames of the commands (R31). -/

namespace Sys2Proof.Machine

/-! `F` never leads to the pair `(0, 0)` from another one (R84). -/

/-- A word that equals its own right shift by 19 is 0. -/
theorem eq_zero_of_xor_ushiftRight_eq_zero {y : Word} (h : y ^^^ (y >>> 19) = 0) : y = 0 := by
  have hnat : y.toNat = y.toNat / 2 ^ 19 := by
    conv_lhs => rw [BitVec.xor_eq_zero_iff.1 h, BitVec.toNat_ushiftRight, Nat.shiftRight_eq_div_pow]
  exact BitVec.eq_of_toNat_eq (by change y.toNat = 0; omega)

theorem transition_ne_zero {g : Gen} (hg : g ≠ (0, 0)) : transition g ≠ (0, 0) := by
  obtain ⟨x, y⟩ := g
  intro h
  obtain ⟨hx', hy'⟩ := Prod.mk.inj h
  obtain rfl : y = 0 := eq_zero_of_xor_ushiftRight_eq_zero hx'
  obtain rfl : x = 0 := by simpa [rotr] using hy'
  exact hg rfl

theorem advance_ne_zero (k : Nat) {g : Gen} (hg : g ≠ (0, 0)) : advance k g ≠ (0, 0) := by
  induction k generalizing g with
  | zero => exact hg
  | succ k ih => exact ih (transition_ne_zero hg)

/-! What a command answers, by the kind of command. -/

/-- A command that needs a state raises `UNSEEDED` while `SEEDED = 0`, whatever its operands (R173, R177). -/
theorem exec_unseeded {i : Instr}
    (hi : i = .getx ∨ i = .gety ∨ i = .u64 ∨ i = .f64 ∨ (∃ lo hi, i = .btw lo hi) ∨ ∃ a len, i = .fill a len)
    {s : State} (hs : s.seeded = false) : exec i s = .next (s.raise .unseeded) := by
  rcases hi with rfl | rfl | rfl | rfl | ⟨lo, hi, rfl⟩ | ⟨a, len, rfl⟩ <;> exact if_pos hs

/-- `LDS` answers `ZERO_STATE`, or establishes its operands, a pair other than `(0, 0)` (R104). -/
theorem execLds_cases (x y : Word) (s : State) :
    execLds x y s = .next (s.raise .zeroState) ∨
      (x, y) ≠ ((0, 0) : Gen) ∧ execLds x y s = .next ((s.establish (x, y)).respond 0) := by
  by_cases h0 : x = 0 ∧ y = 0
  · exact .inl (if_pos h0)
  · exact .inr ⟨fun h => h0 (Prod.mk.inj h), if_neg h0⟩

/-- `GETX`, `GETY` and `STAT` answer and do nothing else (R105, R106, R107). -/
theorem exec_read_eq {i : Instr} (hi : i = .getx ∨ i = .gety ∨ i = .stat) (s : State) :
    ∃ r, exec i s = .next (s.answer r) := by
  rcases hi with rfl | rfl | rfl
  · change ∃ r, execGetx s = _
    unfold execGetx
    split <;> exact ⟨_, rfl⟩
  · change ∃ r, execGety s = _
    unfold execGety
    split <;> exact ⟨_, rfl⟩
  · exact ⟨_, rfl⟩

/-- `LDS` and `SEED` answer, and establish a state or do nothing else (R102, R104). -/
theorem exec_seeding_eq {i : Instr} (hi : (∃ x y, i = .lds x y) ∨ ∃ v, i = .seed v) (s : State) :
    ∃ r, exec i s = .next (s.answer r) ∨ ∃ g, exec i s = .next ((s.establish g).answer r) := by
  rcases hi with ⟨x, y, rfl⟩ | ⟨v, rfl⟩
  · rcases execLds_cases x y s with h | ⟨-, h⟩
    · exact ⟨_, .inl h⟩
    · exact ⟨_, .inr ⟨_, h⟩⟩
  · exact ⟨_, .inr ⟨_, rfl⟩⟩

/-- `U64`, `F64` and `BTW`, where they go on, answer and write the pair, on an error the one that is there (R22). -/
theorem exec_drawing_next {i : Instr} (hi : i = .u64 ∨ i = .f64 ∨ ∃ lo hi, i = .btw lo hi) {s t : State}
    (h : exec i s = .next t) : ∃ g r, t = (s.setPair g).answer r := by
  rcases hi with rfl | rfl | ⟨lo, hi, rfl⟩
  · change execU64 s = _ at h
    unfold execU64 at h
    split at h <;> cases h
    · exact ⟨s.pair, _, rfl⟩
    · exact ⟨_, _, rfl⟩
  · change execF64 s = _ at h
    unfold execF64 at h
    split at h <;> cases h
    · exact ⟨s.pair, _, rfl⟩
    · exact ⟨_, _, rfl⟩
  · change execBtw lo hi s = _ at h
    unfold execBtw at h
    split at h
    · cases h
      exact ⟨s.pair, _, rfl⟩
    · split at h
      · cases h
        exact ⟨s.pair, _, rfl⟩
      · split at h <;> cases h
        exact ⟨_, _, rfl⟩

/-- A `FILL` that goes on raises a condition or has run (R157). -/
theorem execFill_next_cases {a len : Word} {s t : State} (h : execFill a len s = .next t) :
    (∃ c, t = s.raise c) ∨ t = fillResult a len s := by
  cases hs : s.seeded with
  | false =>
    have hraise : execFill a len s = .next (s.raise .unseeded) := if_pos hs
    exact .inl ⟨_, Host.Outcome.next.inj (h.symm.trans hraise)⟩
  | true =>
    by_cases ha : a.toNat + len.toNat ≤ 2 ^ 64
    · exact .inr (execFill_next hs ha h)
    · have hraise : execFill a len s = .next (s.raise .bufWrap) :=
        (if_neg (by simp [hs])).trans (if_pos (by simpa [bufWraps] using ha))
      exact .inl ⟨_, Host.Outcome.next.inj (h.symm.trans hraise)⟩

/-! The invariant of R21. -/

/-- A command keeps R21's invariant: what it establishes is not `(0, 0)`, and draws do not lead there. -/
theorem exec_keeps_nonzero {i : Instr} {s t : State} (hs : s.seeded = true → s.pair ≠ (0, 0)) (h : exec i s = .next t) :
    t.seeded = true → t.pair ≠ (0, 0) := by
  have hc := exec_case i s
  rw [h] at hc
  cases hc with
  | raised c hc => exact hs
  | read v => exact hs
  | established g hg => exact fun _ => hg
  | drawn k v hseeded hk => exact fun _ => advance_ne_zero k (hs hseeded)
  | filled a len hseeded ha hb => exact fun _ => advance_ne_zero _ (hs hseeded)

/-- Settles O14, by cases on what the step did. -/
theorem stepKeepsNonZeroState : Obligations.StepKeepsNonZeroState := by
  intro s t hs h
  cases step_next_case h with
  | idle hi => exact hs
  | undefined w rest hi hd => exact hs
  | command w rest i t hi hd he => exact exec_keeps_nonzero (s := s.accept rest) hs he
  | reset inp rest ws hi hr hw => exact fun hseeded => Bool.noConfusion hseeded

/-- Settles O13: after reset `SEEDED = 0`. -/
theorem resetMeetsInvariant : Obligations.ResetMeetsInvariant :=
  ⟨fun hseeded => Bool.noConfusion hseeded, reset_memWf⟩

/-! While `SEEDED = 0`, the host cannot see `X` and `Y` (R24): each operation keeps two states alike to the host. -/

namespace SameToHost

variable {s t : State}

theorem refl (s : State) : SameToHost s s := ⟨rfl, fun _ => rfl, rfl, rfl, rfl, rfl, rfl⟩

theorem seeded_eq (h : SameToHost s t) : s.seeded = t.seeded := by
  obtain ⟨hseeded, -⟩ := h
  exact hseeded

theorem inputs_eq (h : SameToHost s t) : s.inputs = t.inputs := by
  obtain ⟨-, -, -, -, hinputs, -⟩ := h
  exact hinputs

/-- With `SEEDED = 1` the host sees the whole state. -/
theorem eq_of_seeded (h : SameToHost s t) (hs : s.seeded = true) : s = t := by
  obtain ⟨hseeded, hpair, hmem, hbacked, hinputs, hresponses, hcount⟩ := h
  obtain ⟨hx, hy⟩ := Prod.mk.inj (hpair hs)
  cases s
  cases t
  simp_all

theorem accept (h : SameToHost s t) (rest : List Input) : SameToHost (s.accept rest) (t.accept rest) := by
  obtain ⟨hseeded, hpair, hmem, hbacked, -, hresponses, hcount⟩ := h
  exact ⟨hseeded, hpair, hmem, hbacked, rfl, hresponses, hcount⟩

theorem answer (h : SameToHost s t) (r : Response) : SameToHost (s.answer r) (t.answer r) := by
  obtain ⟨hseeded, hpair, hmem, hbacked, hinputs, hresponses, hcount⟩ := h
  exact ⟨hseeded, hpair, hmem, hbacked, hinputs, congrArg (· ++ [r]) hresponses, hcount⟩

theorem establish (h : SameToHost s t) (g : Gen) : SameToHost (s.establish g) (t.establish g) := by
  obtain ⟨-, -, hmem, hbacked, hinputs, hresponses, hcount⟩ := h
  exact ⟨rfl, fun _ => rfl, hmem, hbacked, hinputs, hresponses, hcount⟩

theorem takeReset (h : SameToHost s t) : SameToHost s.takeReset t.takeReset := by
  obtain ⟨-, -, hmem, hbacked, hinputs, hresponses, hcount⟩ := h
  exact ⟨rfl, fun hseeded => Bool.noConfusion hseeded, hmem, hbacked, hinputs, hresponses, congrArg (· + 2) hcount⟩

end SameToHost

/-- An outcome agrees with itself under a reflexive relation. -/
theorem OutcomesAgree.refl {R : State → State → Prop} (hR : ∀ s, R s s) (o : Host.Outcome State Fault Refusal) :
    OutcomesAgree R o o := by
  cases o with
  | next s => exact hR s
  | fault p => exact Eq.refl p
  | refused p => exact Eq.refl p

/-- A command in progress leaves no trace of itself if reset strikes while `SEEDED = 0` (R191). -/
theorem abandon_unseeded {s : State} (hs : s.seeded = false) (i : Instr) : abandon i s = .next s.takeReset := by
  cases i with
  | fill a len => exact if_pos hs
  | _ => rfl

theorem abandonWord_unseeded {s : State} (hs : s.seeded = false) (w : CmdWord) :
    abandonWord w s = .next s.takeReset := by
  unfold abandonWord
  cases decode w with
  | command i => exact abandon_unseeded hs i
  | illegal => rfl

section
variable {s t : State} (h : SameToHost s t) (hs : s.seeded = false)
include h hs

/-- While `SEEDED = 0` a command does not depend on `X` and `Y`: it raises `UNSEEDED`, or it is `LDS`, `SEED` or `STAT`, which
read neither (R24). -/
theorem exec_agree_of_unseeded (i : Instr) : OutcomesAgree SameToHost (exec i s) (exec i t) := by
  have ht : t.seeded = false := h.seeded_eq.symm.trans hs
  cases i with
  | lds x y =>
    change OutcomesAgree _ (execLds x y s) (execLds x y t)
    unfold execLds
    split
    · exact h.answer _
    · exact (h.establish _).answer _
  | seed v => exact (h.establish _).answer _
  | stat =>
    change SameToHost (s.respond (statusWord s)) (t.respond (statusWord t))
    rw [statusWord, statusWord, hs, ht]
    exact h.answer _
  | _ =>
    rw [exec_unseeded (by simp) hs, exec_unseeded (by simp) ht]
    exact h.answer _

theorem runWord_agree_of_unseeded (w : CmdWord) : OutcomesAgree SameToHost (runWord w s) (runWord w t) := by
  unfold runWord
  cases decode w with
  | command i => exact exec_agree_of_unseeded h hs i
  | illegal => exact h.answer _

theorem step_agree_of_unseeded : OutcomesAgree SameToHost (step s) (step t) := by
  have ht : t.seeded = false := h.seeded_eq.symm.trans hs
  have hinputs := h.inputs_eq
  cases hi : s.inputs with
  | nil =>
    rw [step_nil hi, step_nil (hinputs ▸ hi)]
    exact h
  | cons inp rest =>
    cases inp with
    | command w =>
      rw [step_command hi, step_command (hinputs ▸ hi)]
      exact runWord_agree_of_unseeded (h.accept rest) hs w
    | reset =>
      rw [step_reset hi, step_reset (hinputs ▸ hi)]
      exact (h.accept rest).takeReset
    | resetDuring w =>
      rw [step_resetDuring hi, step_resetDuring (hinputs ▸ hi), abandonWord_unseeded (s := s.accept rest) hs,
        abandonWord_unseeded (s := t.accept rest) ht]
      exact (h.accept rest).takeReset

end

/-- Settles O18: with `SEEDED = 1` the two states are equal; with `SEEDED = 0` nothing a step does depends on the pair. -/
theorem unseededRegistersAreInvisible : Obligations.UnseededRegistersAreInvisible := by
  intro s t h
  cases hs : s.seeded with
  | true =>
    rw [h.eq_of_seeded hs]
    exact OutcomesAgree.refl SameToHost.refl _
  | false => exact step_agree_of_unseeded h hs

/-! How `SEEDED` changes (R23). -/

/-- No command clears `SEEDED`. -/
theorem exec_keeps_seeded {i : Instr} {s t : State} (hs : s.seeded = true) (h : exec i s = .next t) : t.seeded = true := by
  have hc := exec_case i s
  rw [h] at hc
  cases hc with
  | established g hg => rfl
  | _ => exact hs

/-- Only `SEED`, and `LDS` of a pair other than `(0, 0)`, set `SEEDED`. -/
theorem exec_sets_seeded {i : Instr} {s t : State} (hs : s.seeded = false) (h : exec i s = .next t)
    (ht : t.seeded = true) : (∃ v, i = .seed v) ∨ ∃ x y, (x, y) ≠ ((0, 0) : Gen) ∧ i = .lds x y := by
  have not_answer {r : Response} (hr : exec i s = .next (s.answer r)) : False := by
    cases h.symm.trans hr
    exact Bool.false_ne_true (hs.symm.trans ht)
  cases i with
  | seed v => exact .inl ⟨v, rfl⟩
  | lds x y =>
    rcases execLds_cases x y s with hzero | ⟨hne, -⟩
    · exact (not_answer hzero).elim
    · exact .inr ⟨x, y, hne, rfl⟩
  | stat => exact (not_answer rfl).elim
  | _ => exact (not_answer (exec_unseeded (by simp) hs)).elim

/-- Settles O16, by cases on what the step did. -/
theorem seededChangesOnlyBySeedingOrReset : Obligations.SeededChangesOnlyBySeedingOrReset := by
  intro s t h
  cases step_next_case h with
  | idle hi => exact ⟨fun hs ht => Bool.noConfusion (hs.symm.trans ht), fun hs ht => Bool.noConfusion (hs.symm.trans ht)⟩
  | undefined w rest hi hd =>
    exact ⟨fun hs ht => Bool.noConfusion (hs.symm.trans ht), fun hs ht => Bool.noConfusion (hs.symm.trans ht)⟩
  | command w rest i t hi hd he =>
    refine ⟨fun hs ht => ?_, fun hs ht => ⟨w, rest, hi, ?_⟩⟩
    · exact Bool.noConfusion (ht.symm.trans (exec_keeps_seeded (s := s.accept rest) hs he))
    · rcases exec_sets_seeded (s := s.accept rest) hs he ht with ⟨v, rfl⟩ | ⟨x, y, hne, rfl⟩
      · exact .inl ⟨v, hd⟩
      · exact .inr ⟨x, y, hne, hd⟩
  | reset inp rest ws hi hr hw => exact ⟨fun _ _ => ⟨inp, rest, hi, hr⟩, fun _ ht => Bool.noConfusion ht⟩

/-! Reset (R30) and the frames (R31). -/

/-- Settles O11: after reset `SEEDED = 0`, so that a command that needs a state raises `UNSEEDED`. -/
theorem resetLeavesUnseeded : Obligations.ResetLeavesUnseeded :=
  ⟨rfl, rfl, rfl, rfl, fun _ hi => exec_unseeded hi rfl⟩

/-- Settles O21: the three commands only answer. -/
theorem readCommandsFrame : Obligations.ReadCommandsFrame := by
  intro i s t hi h
  obtain ⟨r, hr⟩ := exec_read_eq hi s
  cases h.symm.trans hr
  exact ⟨rfl, fun _ => rfl⟩

/-- Settles O22: the commands only establish or write a pair and answer. -/
theorem registerCommandsFrame : Obligations.RegisterCommandsFrame := by
  intro i s t h
  refine ⟨fun hi => ?_, fun hi => ?_⟩
  · obtain ⟨r, hr | ⟨g, hr⟩⟩ := exec_seeding_eq hi s
    · cases h.symm.trans hr
      exact ⟨rfl, fun _ => rfl⟩
    · cases h.symm.trans hr
      exact ⟨rfl, fun _ => rfl⟩
  · obtain ⟨g, r, rfl⟩ := exec_drawing_next hi h
    exact ⟨rfl, fun _ => rfl⟩

/-- Settles O23: a `FILL` raises a condition, or has written the bytes of its region. -/
theorem fillFrame : Obligations.FillFrame := by
  intro a len s t h
  rcases execFill_next_cases h with ⟨c, rfl⟩ | rfl
  · exact ⟨rfl, fun _ _ => rfl⟩
  · refine ⟨rfl, fun b hb => ?_⟩
    exact (memRead_fillRun s.mem a.toNat len.toNat s.pair b).trans (if_neg (by omega))

end Sys2Proof.Machine
end

section
/-! The obligations of 20_memory.md: the form of memory (R40), that the block never reads it (R44), what is backed (R45), the order
of a fill's writes (R47) and the fill law (R53). -/

namespace Sys2Proof.Machine

/-! The form of memory (R40). -/

/-- A command writes no byte outside the address space. -/
theorem exec_keeps_memWf {i : Instr} {s t : State} (hs : memWf s.mem = true) (h : exec i s = .next t) :
    memWf t.mem = true := by
  have hc := exec_case i s
  rw [h] at hc
  cases hc with
  | filled a len hseeded ha hb =>
    refine memWriteAll_wf hs fun c hc => ?_
    obtain ⟨i, hi, rfl⟩ := List.mem_map.1 hc
    have := List.mem_range.1 hi
    simp only [fillCell]
    omega
  | _ => exact hs

/-- Settles O15, by cases on what the step did. -/
theorem stepKeepsMemoryForm : Obligations.StepKeepsMemoryForm := by
  intro s t hs h
  cases step_next_case h with
  | idle hi => exact hs
  | undefined w rest hi hd => exact hs
  | command w rest i t hi hd he => exact exec_keeps_memWf (s := s.accept rest) hs he
  | reset inp rest ws hi hr hw => exact memWriteAll_wf hs hw

/-! The block never reads memory (R44): the same step from another memory makes the same byte writes. -/

/-- The states `s'` and `t'` differ in memory only, which is `m` and `n` after the same byte writes. -/
def WroteAlike (m n : List Host.Cell) (s' t' : State) : Prop :=
  ∃ ws, s'.mem = memWriteAll m ws ∧ t' = s'.setMem (memWriteAll n ws)

theorem WroteAlike.of_writes {m n : List Host.Cell} {s' : State} (ws : List Host.Cell) (h : s'.mem = memWriteAll m ws) :
    WroteAlike m n s' (s'.setMem (memWriteAll n ws)) := ⟨ws, h, rfl⟩

/-- After no write at all. -/
theorem WroteAlike.of_mem_eq {m n : List Host.Cell} {s' : State} (h : s'.mem = m) : WroteAlike m n s' (s'.setMem n) :=
  .of_writes [] h

/-- The same byte writes leave a byte equal in both memories, or as it was in both. -/
theorem memRead_memWriteAll_alike (m n ws : List Host.Cell) (b : Nat) :
    memRead (memWriteAll m ws) b = memRead (memWriteAll n ws) b ∨
      (memRead (memWriteAll m ws) b = memRead m b ∧ memRead (memWriteAll n ws) b = memRead n b) := by
  induction ws generalizing m n with
  | nil => exact .inr ⟨rfl, rfl⟩
  | cons c cs ih =>
    rcases ih (memWrite m c.1 c.2) (memWrite n c.1 c.2) with heq | ⟨hm, hn⟩
    · exact .inl heq
    · by_cases hb : b = c.1
      · subst hb
        exact .inl (by simp only [memWriteAll, hm, hn, memRead_memWrite_same])
      · rw [memRead_memWrite_of_ne _ _ hb] at hm hn
        exact .inr ⟨hm, hn⟩

theorem OutcomesAgree.mono {R Q : State → State → Prop} (hRQ : ∀ s t, R s t → Q s t)
    {o p : Host.Outcome State Fault Refusal} (h : OutcomesAgree R o p) : OutcomesAgree Q o p := by
  cases o <;> cases p
  case next.next s t => exact hRQ s t h
  all_goals exact h

/-- Two machines that take the same branch agree if they do in each. -/
theorem OutcomesAgree.ite {R : State → State → Prop} {c : Prop} [Decidable c] {o p o' p' : Host.Outcome State Fault Refusal}
    (ht : OutcomesAgree R o p) (he : OutcomesAgree R o' p') :
    OutcomesAgree R (if c then o else o') (if c then p else p') := by
  split
  · exact ht
  · exact he

section
variable (s : State) (n : List Host.Cell)

theorem execBtw_wroteAlike (lo hi : Word) :
    OutcomesAgree (WroteAlike s.mem n) (execBtw lo hi s) (execBtw lo hi (s.setMem n)) := by
  unfold execBtw
  refine .ite (WroteAlike.of_mem_eq rfl) (.ite (WroteAlike.of_mem_eq rfl) ?_)
  rw [State.setMem_pair]
  cases between lo hi s.pair with
  | some r => exact WroteAlike.of_mem_eq rfl
  | none => exact Eq.refl Fault.samplerNeverAccepts

theorem execFill_wroteAlike (a len : Word) :
    OutcomesAgree (WroteAlike s.mem n) (execFill a len s) (execFill a len (s.setMem n)) := by
  refine .ite (WroteAlike.of_mem_eq rfl) (.ite (WroteAlike.of_mem_eq rfl) (.ite (Eq.refl Refusal.unbackedMemory) ?_))
  exact WroteAlike.of_writes (fillRun a.toNat len.toNat s.pair).1 rfl

theorem abandonFill_wroteAlike (a len : Word) :
    OutcomesAgree (WroteAlike s.mem n) (abandonFill a len s) (abandonFill a len (s.setMem n)) := by
  refine .ite (WroteAlike.of_mem_eq rfl) (.ite (WroteAlike.of_mem_eq rfl) (.ite (Eq.refl Refusal.unbackedMemory) ?_))
  exact WroteAlike.of_writes ((fillRun a.toNat len.toNat s.pair).1.take (writtenBeforeReset s.freeCount len.toNat)) rfl

/-- A command does not depend on memory: its checks and its response do not, nor do the bytes it writes. -/
theorem exec_wroteAlike (i : Instr) : OutcomesAgree (WroteAlike s.mem n) (exec i s) (exec i (s.setMem n)) := by
  cases i with
  | lds x y => exact OutcomesAgree.ite (WroteAlike.of_mem_eq rfl) (WroteAlike.of_mem_eq rfl)
  | seed v => exact WroteAlike.of_mem_eq rfl
  | stat => exact WroteAlike.of_mem_eq rfl
  | getx => exact OutcomesAgree.ite (WroteAlike.of_mem_eq rfl) (WroteAlike.of_mem_eq rfl)
  | gety => exact OutcomesAgree.ite (WroteAlike.of_mem_eq rfl) (WroteAlike.of_mem_eq rfl)
  | u64 => exact OutcomesAgree.ite (WroteAlike.of_mem_eq rfl) (WroteAlike.of_mem_eq rfl)
  | f64 => exact OutcomesAgree.ite (WroteAlike.of_mem_eq rfl) (WroteAlike.of_mem_eq rfl)
  | btw lo hi => exact execBtw_wroteAlike s n lo hi
  | fill a len => exact execFill_wroteAlike s n a len

theorem runWord_wroteAlike (w : CmdWord) :
    OutcomesAgree (WroteAlike s.mem n) (runWord w s) (runWord w (s.setMem n)) := by
  unfold runWord
  cases decode w with
  | command i => exact exec_wroteAlike s n i
  | illegal => exact WroteAlike.of_mem_eq rfl

theorem abandonWord_wroteAlike (w : CmdWord) :
    OutcomesAgree (WroteAlike s.mem n) (abandonWord w s) (abandonWord w (s.setMem n)) := by
  unfold abandonWord
  cases decode w with
  | command i =>
    cases i with
    | fill a len => exact abandonFill_wroteAlike s n a len
    | _ => exact WroteAlike.of_mem_eq rfl
  | illegal => exact WroteAlike.of_mem_eq rfl

theorem step_wroteAlike : OutcomesAgree (WroteAlike s.mem n) (step s) (step (s.setMem n)) := by
  cases hi : s.inputs with
  | nil =>
    rw [step_nil hi, step_nil (s := s.setMem n) hi]
    exact WroteAlike.of_mem_eq rfl
  | cons inp rest =>
    cases inp with
    | command w =>
      rw [step_command hi, step_command (s := s.setMem n) hi]
      exact runWord_wroteAlike (s.accept rest) n w
    | reset =>
      rw [step_reset hi, step_reset (s := s.setMem n) hi]
      exact WroteAlike.of_mem_eq rfl
    | resetDuring w =>
      rw [step_resetDuring hi, step_resetDuring (s := s.setMem n) hi]
      exact abandonWord_wroteAlike (s.accept rest) n w

end

/-- Settles O19: the two steps make the same byte writes, and what the same writes leave is equal or as it was. -/
theorem blockNeverReadsMemory : Obligations.BlockNeverReadsMemory := by
  intro s t hst
  have hstep := step_wroteAlike s t.mem
  rw [show s.setMem t.mem = t from hst] at hstep
  refine hstep.mono fun s' t' hwrote => ?_
  obtain ⟨ws, hmem, rfl⟩ := hwrote
  refine ⟨rfl, fun b => ?_⟩
  rw [State.setMem_mem, hmem]
  exact memRead_memWriteAll_alike s.mem t.mem ws b

/-! Refusal (R45). -/

/-- A region is not backed exactly if it contains an unbacked address. -/
theorem regionBacked_eq_false_iff (backed : List Region) (a len : Nat) :
    regionBacked backed a len = false ↔ ∃ i < len, isBacked backed (a + i) = false := by
  simp [← Bool.not_eq_true, regionBacked_iff]

/-- A `FILL` is refused exactly if both its checks pass and its region is not backed (R157, R177). -/
theorem execFill_refused_iff (a len : Word) (s : State) :
    execFill a len s = .refused .unbackedMemory ↔
      s.seeded = true ∧ bufWraps a len = false ∧ regionBacked s.backed a.toNat len.toNat = false := by
  unfold execFill
  split
  · rename_i hs
    simp [hs]
  · rename_i hs
    split
    · rename_i hw
      simp [hw]
    · rename_i hw
      split
      · rename_i hb
        simp [hs, hw, hb]
      · rename_i hb
        simp [hb]

/-- Settles O51: the bound on `a + len` is what `bufWraps` checks, the unbacked address what `regionBacked` looks for. -/
theorem fillRefusesUnbacked : Obligations.FillRefusesUnbacked := by
  intro a len s
  rw [← bufWraps_eq_false_iff, ← regionBacked_eq_false_iff]
  exact execFill_refused_iff a len s

/-! The fill law (R53) and the order of the writes (R47). -/

/-- Byte `j` of a word is its digit `j` to the base `2^8` (R41). -/
theorem wordByte_eq (r : Word) (j : Nat) : wordByte r j = BitVec.ofNat 8 (r.toNat / 2 ^ (8 * j)) := by
  rw [← Nat.shiftRight_eq_div_pow]
  rfl

/-- Byte `i` of the region after a fill. -/
theorem memRead_fillResult_region (a len : Word) (s : State) {i : Nat} (hi : i < len.toNat) :
    memRead (fillResult a len s).mem (a.toNat + i) = some (wordByte (rawWord s.pair (i / 8 + 1)) (i % 8)) := by
  refine (memRead_fillRun s.mem a.toNat len.toNat s.pair (a.toNat + i)).trans ?_
  rw [if_pos (by omega), Nat.add_sub_cancel_left]

/-- Settles O52: a `FILL` of a backed region runs; what it leaves outside the region is `fillFrame`'s. -/
theorem fillLaw : Obligations.FillLaw := by
  intro a len s hs ha hb
  have hrun : exec (.fill a len) s = .next (fillResult a len s) := execFill_runs hs ha ((regionBacked_iff ..).2 hb)
  obtain ⟨-, houtside⟩ := fillFrame a len s _ hrun
  refine ⟨fillResult a len s, hrun, rfl, fun i hi => ?_, houtside⟩
  rw [memRead_fillResult_region a len s hi, wordByte_eq]

/-- Settles O54: a `FILL` that goes on has made the writes of `fillRun`, whose addresses ascend. -/
theorem fillWritesAscend : Obligations.FillWritesAscend := by
  intro a len s t hs ha h
  obtain rfl := execFill_next hs ha h
  refine ⟨?_, rfl⟩
  rw [fillRun_addresses, List.range'_eq_map_range]

end Sys2Proof.Machine
end

section
/-! The obligations of 30_encoding.md on words: the decoder and the encoder (R61 to R69), undefined opcodes (R64) and the response
word (R66). -/

namespace Sys2Proof

/-! The decoder: which fields it looks at (R65, R67), and what an answer says of them. -/

/-- R63's table gives each command for its own opcode and operands. -/
theorem commandOf_opcodeOf (i : Instr) : commandOf (opcodeOf i) (aOperand i) (bOperand i) = .command i := by
  cases i <;> rfl

/-- Settles O1: the fields of a packed word are looked up in R63's table, which gives the command back. -/
theorem decodeOfEncode : Obligations.DecodeOfEncode := by
  intro i
  calc decode (encode i) = commandOf (opcodeOf i) (aOperand i) (bOperand i) := decode_packFields _ _ _
    _ = .command i := commandOf_opcodeOf i

/-- The opcodes of R63's table. -/
abbrev definedOpcodes : List (BitVec 8) := [0x01, 0x02, 0x03, 0x04, 0x05, 0x10, 0x11, 0x12, 0x13]

/-- The opcodes whose command takes `a` (R63). -/
abbrev opcodesTakingA : List (BitVec 8) := [0x01, 0x02, 0x11, 0x13]

/-- The opcodes whose command takes `b` (R63). -/
abbrev opcodesTakingB : List (BitVec 8) := [0x01, 0x11, 0x13]

/-- A command the table answers has the word's opcode, and the word's operands where it takes them. -/
theorem fields_of_commandOf {op : BitVec 8} {a b : Word} {i : Instr} (h : commandOf op a b = .command i) :
    op = opcodeOf i ∧ (op ∈ opcodesTakingA → a = aOperand i) ∧ (op ∈ opcodesTakingB → b = bOperand i) := by
  have hc := commandOf_case op a b
  rw [h] at hc
  cases hc with
  | lds hop | btw hop | fill hop => exact ⟨hop, fun _ => rfl, fun _ => rfl⟩
  | seed hop =>
    subst hop
    exact ⟨rfl, fun _ => rfl, fun hB => absurd hB (by decide)⟩
  | getx hop | gety hop | stat hop | u64 hop | f64 hop =>
    subst hop
    exact ⟨rfl, fun hA => absurd hA (by decide), fun hB => absurd hB (by decide)⟩

/-- The table answers `Illegal` exactly for the opcodes outside it (R64). -/
theorem commandOf_eq_illegal_iff (op : BitVec 8) (a b : Word) : commandOf op a b = .illegal ↔ op ∉ definedOpcodes := by
  have hc := commandOf_case op a b
  generalize commandOf op a b = d at hc ⊢
  cases hc with
  | illegal hop => exact iff_of_true rfl hop
  | lds hop | seed hop | getx hop | gety hop | stat hop | u64 hop | btw hop | f64 hop | fill hop => simp [hop]

/-- A word is `Illegal` exactly if its opcode is outside the table (R64, R67). -/
theorem decode_eq_illegal_iff (w : CmdWord) : decode w = .illegal ↔ opField w ∉ definedOpcodes :=
  commandOf_eq_illegal_iff _ _ _

/-- The table's answer depends on an operand only for an opcode whose command takes it (R65). -/
theorem commandOf_congr {op : BitVec 8} {a b a' b' : Word} (ha : op ∈ opcodesTakingA → a = a')
    (hb : op ∈ opcodesTakingB → b = b') : commandOf op a b = commandOf op a' b' := by
  have hc := commandOf_case op a b
  generalize commandOf op a b = d at hc ⊢
  cases hc with
  | lds hop | btw hop | fill hop =>
    subst hop
    rw [ha (by decide), hb (by decide)]
    rfl
  | seed hop =>
    subst hop
    rw [ha (by decide)]
    rfl
  | getx hop | gety hop | stat hop | u64 hop | f64 hop => subst hop; rfl
  | illegal hop => exact ((commandOf_eq_illegal_iff op a' b').2 hop).symm

/-- Settles O2: a command fixes the opcode and the operands taken, and these fix the command. -/
theorem decodeLooksAtUsedFieldsOnly : Obligations.DecodeLooksAtUsedFieldsOnly := by
  intro w v
  constructor
  · intro h
    cases hw : decode w with
    | command i =>
      obtain ⟨hop, ha, hb⟩ := fields_of_commandOf hw
      obtain ⟨hop', ha', hb'⟩ := fields_of_commandOf (h ▸ hw)
      have hwv : opField w = opField v := hop.trans hop'.symm
      exact .inl ⟨hwv, fun hA => (ha hA).trans (ha' (hwv ▸ hA)).symm, fun hB => (hb hB).trans (hb' (hwv ▸ hB)).symm⟩
    | illegal => exact .inr ⟨(decode_eq_illegal_iff w).1 hw, (decode_eq_illegal_iff v).1 (h ▸ hw)⟩
  · rintro (⟨hop, ha, hb⟩ | ⟨hw, hv⟩)
    · unfold decode
      rw [← hop]
      exact commandOf_congr ha hb
    · rw [(decode_eq_illegal_iff w).2 hw, (decode_eq_illegal_iff v).2 hv]

/-- The opcodes outside R63's table, as ranges (R64). -/
theorem notMem_definedOpcodes_iff (op : BitVec 8) :
    op ∉ definedOpcodes ↔ op = 0x00 ∨ (0x06 ≤ op ∧ op ≤ 0x0F) ∨ 0x14 ≤ op := by
  simp only [List.mem_cons, List.not_mem_nil, or_false, not_or, BitVec.le_def, ← BitVec.toNat_inj, BitVec.ofNat_eq_ofNat,
    BitVec.toNat_ofNat, Nat.reducePow, Nat.reduceMod, Nat.zero_mod, Nat.one_mod]
  omega

end Sys2Proof

namespace Sys2Proof.Machine

/-- Settles O3: the ranges are the opcodes outside the table, and such a word raises `ILLEGAL`. -/
theorem undefinedOpcodesAnswerIllegal : Obligations.UndefinedOpcodesAnswerIllegal := by
  intro w s rest hi
  refine ⟨((decode_eq_illegal_iff w).trans (notMem_definedOpcodes_iff _)).symm, fun hd => ?_⟩
  rcases runWord_case w (s.accept rest) with ⟨i, hd', -⟩ | ⟨-, he⟩
  · exact absurd (hd.symm.trans hd') (by simp)
  · exact (step_command hi).trans he

/-- Settles O4: each fixed word is decoded by evaluation. -/
theorem specWordsDecode : Obligations.SpecWordsDecode := by
  unfold Obligations.SpecWordsDecode
  decide

/-- No status has a reserved code (R171). -/
theorem statusCode_le (c : Status) : statusCode c ≤ 0x05 := by
  cases c <;> decide

/-- Settles O5: the response word is the status code above the value. -/
theorem responseWordLayout : Obligations.ResponseWordLayout := by
  refine ⟨fun r => ⟨?_, ?_, statusCode_le r.status⟩, rfl, rfl, rfl, rfl, rfl, rfl⟩
  · exact BitVec.extractLsb'_append_eq_left
  · exact BitVec.extractLsb'_append_eq_right

end Sys2Proof.Machine
end

section
/-! The obligation of 30_encoding.md on text: the assembler reads back what is printed (R69). -/

namespace Sys2Proof.Machine

/-! A hexadecimal digit and a run of them. -/

/-- A digit reads back as its value. -/
theorem digitValue_hexDigit {d : Nat} (h : d < 16) : digitValue (hexDigit d) = some d := by
  revert d
  decide

/-- A digit is none of the characters the assembler treats in a way of their own. -/
theorem hexDigit_plain {d : Nat} (h : d < 16) :
    isBlankChar (hexDigit d) = false ∧ hexDigit d ≠ ';' ∧ hexDigit d ≠ ',' ∧ hexDigit d ≠ '_' := by
  revert d
  decide

/-- Every character of a printed number is a digit. -/
theorem exists_hexDigit_of_mem {c : Char} {k n : Nat} (h : c ∈ hexDigits k n) : ∃ d < 16, c = hexDigit d := by
  induction k generalizing n with
  | zero => simp [hexDigits] at h
  | succ k ih =>
    rcases List.mem_append.1 h with h | h
    · exact ih h
    · exact ⟨n % 16, Nat.mod_lt _ (by decide), List.mem_singleton.1 h⟩

/-- Reading `k` digits printed of `n` appends them to the number read before. -/
theorem digitsValue_hexDigits (k n acc : Nat) (cs : List Char) :
    digitsValue 16 (hexDigits k n ++ cs) acc = digitsValue 16 cs (acc * 16 ^ k + n % 16 ^ k) := by
  induction k generalizing n cs with
  | zero => simp [hexDigits, Nat.mod_one]
  | succ k ih =>
    have hd : n % 16 < 16 := Nat.mod_lt _ (by decide)
    obtain ⟨-, -, -, hunderscore⟩ := hexDigit_plain hd
    have hn : (acc * 16 ^ k + n / 16 % 16 ^ k) * 16 + n % 16 = acc * 16 ^ (k + 1) + n % 16 ^ (k + 1) := by
      rw [pow_succ', Nat.mod_mul]
      ring
    rw [hexDigits, List.append_assoc, ih, List.singleton_append, digitsValue, if_neg hunderscore,
      digitValue_hexDigit hd]
    simp only [if_pos hd, hn]

/-- A number with no underscore is the value of its digits. -/
theorem numberIn_of_notMem {base : Nat} {cs : List Char} (hne : cs ≠ []) (h : '_' ∉ cs) :
    numberIn base cs = digitsValue base cs 0 := by
  cases cs with
  | nil => exact absurd rfl hne
  | cons c cs => exact if_neg fun hc => h (by simp [hc])

/-! A printed operand. -/

/-- A printed operand reads back as its value. -/
theorem operandNumber_printOperand (v : Word) : operandNumber (printOperand v) = some v.toNat := by
  have hunderscore : '_' ∉ hexDigits 16 v.toNat := fun h => by
    obtain ⟨d, hd, hc⟩ := exists_hexDigit_of_mem h
    obtain ⟨-, -, -, hne⟩ := hexDigit_plain hd
    exact hne hc.symm
  calc operandNumber (printOperand v) = numberIn 16 (hexDigits 16 v.toNat) := rfl
    _ = digitsValue 16 (hexDigits 16 v.toNat ++ []) 0 := by
      rw [List.append_nil, numberIn_of_notMem (by simp [hexDigits]) hunderscore]
    _ = some v.toNat := by
      rw [digitsValue_hexDigits, digitsValue, Nat.zero_mul, Nat.zero_add, show 16 ^ 16 = 2 ^ 64 by rfl,
        Nat.mod_eq_of_lt v.isLt]

/-- A part of a line, a mnemonic or an operand: no character of it ends the part or the line. -/
structure IsPart (cs : List Char) : Prop where
  ne_nil : cs ≠ []
  noBlank : ∀ c ∈ cs, isBlankChar c = false
  noComment : ';' ∉ cs
  noComma : ',' ∉ cs

/-- The characters of a printed operand. -/
theorem mem_printOperand {v : Word} {c : Char} (h : c ∈ printOperand v) :
    c = '0' ∨ c = 'x' ∨ ∃ d < 16, c = hexDigit d := by
  simp only [printOperand, List.mem_cons] at h
  exact h.imp_right (Or.imp_right exists_hexDigit_of_mem)

theorem isPart_printOperand (v : Word) : IsPart (printOperand v) := by
  have plain : ∀ c ∈ printOperand v, isBlankChar c = false ∧ c ≠ ';' ∧ c ≠ ',' := fun c h => by
    rcases mem_printOperand h with rfl | rfl | ⟨d, hd, rfl⟩
    · decide
    · decide
    · obtain ⟨hblank, hsemicolon, hcomma, -⟩ := hexDigit_plain hd
      exact ⟨hblank, hsemicolon, hcomma⟩
  exact ⟨List.cons_ne_nil _ _, fun c h => (plain c h).1, fun h => (plain _ h).2.1 rfl, fun h => (plain _ h).2.2 rfl⟩

/-! Text as the assembler prints it: it begins and ends with a character that is no blank, and holds no comment. -/

/-- No leading blank, so none is dropped. -/
theorem dropWhile_isBlankChar_eq_self {cs : List Char} (h : ∃ c, cs.head? = some c ∧ isBlankChar c = false) :
    cs.dropWhile isBlankChar = cs := by
  obtain ⟨c, hc, hblank⟩ := h
  obtain ⟨cs, rfl⟩ := List.head?_eq_some_iff.1 hc
  exact List.dropWhile_cons_of_neg (by simp [hblank])

/-- Text that `trimBlanks` and `stripComment` leave as it is. -/
structure Tidy (cs : List Char) : Prop where
  head : ∃ c, cs.head? = some c ∧ isBlankChar c = false
  last : ∃ c, cs.getLast? = some c ∧ isBlankChar c = false
  noComment : ';' ∉ cs

namespace Tidy

theorem ne_nil {cs : List Char} (h : Tidy cs) : cs ≠ [] := by
  rintro rfl
  obtain ⟨c, hc, -⟩ := h.head
  cases hc

theorem of_isPart {cs : List Char} (h : IsPart cs) : Tidy cs where
  head := ⟨cs.head h.ne_nil, List.head?_eq_some_head h.ne_nil, h.noBlank _ (List.head_mem h.ne_nil)⟩
  last := ⟨cs.getLast h.ne_nil, List.getLast?_eq_some_getLast h.ne_nil, h.noBlank _ (List.getLast_mem h.ne_nil)⟩
  noComment := h.noComment

theorem printOperand (v : Word) : Tidy (printOperand v) := of_isPart (isPart_printOperand v)

/-- Two tidy texts with any text but a comment between them. -/
theorem append {p q : List Char} (hp : Tidy p) (mid : List Char) (hmid : ';' ∉ mid) (hq : Tidy q) :
    Tidy (p ++ mid ++ q) where
  head := by simpa [List.head?_append_of_ne_nil _ hp.ne_nil] using hp.head
  last := by simpa only [List.getLast?_append_of_ne_nil _ hq.ne_nil] using hq.last
  noComment := by simp [hp.noComment, hmid, hq.noComment]

theorem trimBlanks_eq {cs : List Char} (h : Tidy cs) : trimBlanks cs = cs := by
  rw [trimBlanks, dropWhile_isBlankChar_eq_self h.head, dropWhile_isBlankChar_eq_self (by simpa using h.last),
    List.reverse_reverse]

theorem stripComment_eq {cs : List Char} (h : Tidy cs) : stripComment cs = cs :=
  List.takeWhile_eq_self_iff.2 fun c hc => by
    have : c ≠ ';' := fun he => h.noComment (he ▸ hc)
    simpa using this

end Tidy

/-- A leading blank is dropped. -/
theorem trimBlanks_cons_blank (cs : List Char) : trimBlanks (' ' :: cs) = trimBlanks cs := rfl

/-! The operands of a line. -/

theorem splitCommas_of_notMem {p : List Char} (h : ',' ∉ p) : splitCommas p = [p] := by
  induction p with
  | nil => rfl
  | cons c p ih =>
    simp only [List.mem_cons, not_or] at h
    rw [splitCommas, if_neg (Ne.symm h.1), ih h.2]

theorem splitCommas_append {p : List Char} (h : ',' ∉ p) (cs : List Char) :
    splitCommas (p ++ ',' :: cs) = p :: splitCommas cs := by
  induction p with
  | nil => rfl
  | cons c p ih =>
    simp only [List.mem_cons, not_or] at h
    rw [List.cons_append, splitCommas, if_neg (Ne.symm h.1), ih h.2]

/-- The text of one operand gives its number. -/
theorem operandNumbers_printOperand (v : Word) : operandNumbers (splitCommas (printOperand v)) = some [v.toNat] := by
  simp only [splitCommas_of_notMem (isPart_printOperand v).noComma, operandNumbers, (Tidy.printOperand v).trimBlanks_eq,
    operandNumber_printOperand]

/-- The text of two operands. -/
def printOperands (v w : Word) : List Char := printOperand v ++ [',', ' '] ++ printOperand w

/-- The text of two operands gives their numbers. -/
theorem operandNumbers_printOperands (v w : Word) :
    operandNumbers (splitCommas (printOperands v w)) = some [v.toNat, w.toNat] := by
  have hw : ',' ∉ ' ' :: printOperand w := by
    simpa using (isPart_printOperand w).noComma
  have hsplit : splitCommas (printOperands v w) = [printOperand v, ' ' :: printOperand w] := by
    rw [printOperands, List.append_assoc, ← splitCommas_of_notMem hw]
    exact splitCommas_append (isPart_printOperand v).noComma _
  simp only [hsplit, operandNumbers, trimBlanks_cons_blank, (Tidy.printOperand _).trimBlanks_eq, operandNumber_printOperand]

/-! The line. -/

/-- A mnemonic, a blank and tidy operand text are read as that mnemonic with the numbers of the text. -/
theorem assembleLine_operands {m text : List Char} {ns : List Nat} (hm : IsPart m) (ht : Tidy text)
    (hns : operandNumbers (splitCommas text) = some ns) : assembleLine (m ++ [' '] ++ text) = assembleParts m ns := by
  have hline : Tidy (m ++ [' '] ++ text) := (Tidy.of_isPart hm).append [' '] (by decide) ht
  have hplain : ∀ c ∈ m, (!isBlankChar c) = true := fun c hc => by rw [hm.noBlank c hc]; rfl
  have hfirst : (m ++ [' '] ++ text).takeWhile (fun c => !isBlankChar c) = m := by
    rw [List.append_assoc, List.takeWhile_append_of_pos hplain]
    exact List.append_nil m
  have hrest : trimBlanks ((m ++ [' '] ++ text).dropWhile (fun c => !isBlankChar c)) = text := by
    rw [List.append_assoc, List.dropWhile_append_of_pos hplain]
    exact (trimBlanks_cons_blank text).trans ht.trimBlanks_eq
  simp only [assembleLine, hline.stripComment_eq, hline.trimBlanks_eq, hfirst, hrest, if_neg hline.ne_nil, if_neg ht.ne_nil, hns]

/-- A line with one operand. -/
theorem assembleLine_printOperand {m : List Char} (hm : IsPart m) (v : Word) :
    assembleLine (m ++ [' '] ++ printOperand v) = assembleParts m [v.toNat] :=
  assembleLine_operands hm (.printOperand v) (operandNumbers_printOperand v)

/-- A line with two operands. -/
theorem assembleLine_printOperands {m : List Char} (hm : IsPart m) (v w : Word) :
    assembleLine (m ++ [' '] ++ printOperands v w) = assembleParts m [v.toNat, w.toNat] :=
  assembleLine_operands hm ((Tidy.printOperand v).append _ (by decide) (.printOperand w)) (operandNumbers_printOperands v w)

/-- The mnemonics of R63. -/
def mnemonicOf : Instr → List Char
  | .lds _ _ => ['L', 'D', 'S']
  | .seed _ => ['S', 'E', 'E', 'D']
  | .getx => ['G', 'E', 'T', 'X']
  | .gety => ['G', 'E', 'T', 'Y']
  | .stat => ['S', 'T', 'A', 'T']
  | .u64 => ['U', '6', '4']
  | .btw _ _ => ['B', 'T', 'W']
  | .f64 => ['F', '6', '4']
  | .fill _ _ => ['F', 'I', 'L', 'L']

theorem isPart_mnemonicOf (i : Instr) : IsPart (mnemonicOf i) := by
  constructor <;> cases i <;> simp [mnemonicOf, isBlankChar]

/-- The operands a command takes, in the order `a`, `b` (R69). -/
def operandsOf : Instr → List Word
  | .lds x y => [x, y]
  | .seed v => [v]
  | .getx | .gety | .stat | .u64 | .f64 => []
  | .btw lo hi => [lo, hi]
  | .fill a len => [a, len]

/-- The printed line of a command is read as its mnemonic and its operands. -/
theorem assembleLine_printInstr (i : Instr) :
    assembleLine (printInstr i) = assembleParts (mnemonicOf i) ((operandsOf i).map BitVec.toNat) := by
  cases i with
  | lds x y => exact assembleLine_printOperands (isPart_mnemonicOf (.lds x y)) x y
  | btw lo hi => exact assembleLine_printOperands (isPart_mnemonicOf (.btw lo hi)) lo hi
  | fill a len => exact assembleLine_printOperands (isPart_mnemonicOf (.fill a len)) a len
  | seed v => exact assembleLine_printOperand (isPart_mnemonicOf (.seed v)) v
  | getx | gety | stat | u64 | f64 => rfl

/-- A mnemonic with its operands selects the command. -/
theorem assembleParts_mnemonicOf (i : Instr) : assembleParts (mnemonicOf i) ((operandsOf i).map BitVec.toNat) =
    assembleCommand ((operandsOf i).map BitVec.toNat) i := by
  cases i <;> simp [assembleParts, mnemonicOf, operandsOf]

/-- Operands that come from words fit, and every command is well formed. -/
theorem assembleCommand_toNat (vs : List Word) (i : Instr) : assembleCommand (vs.map BitVec.toNat) i = .word (encode i) := by
  have hfits : (vs.map BitVec.toNat).all operandFits = true := by
    simpa [operandFits] using fun v _ => v.isLt
  have hwf : i.wellFormed = true := by cases i <;> rfl
  rw [assembleCommand, hfits, hwf]
  rfl

/-- Settles O6: the printed line is read as the command's mnemonic and operands, which select the command. -/
theorem assembleOfPrint : Obligations.AssembleOfPrint := by
  intro i
  rw [assembleLine_printInstr, assembleParts_mnemonicOf, assembleCommand_toNat]

end Sys2Proof.Machine
end

section
/-! The obligations of 40_transition_output.md on the engine's functions: the inverse of `F` (R83), its fixed point (R84) and
period (R85), how the raw words are distributed over a cycle (R86), reversibility (R87) and the square (R89). -/

namespace Sys2Proof.Machine

/-! `F` is a bijection (R83). -/

theorem xor_xor_cancel_middle (a b c : Word) : (a ^^^ b) ^^^ (b ^^^ c) = a ^^^ c := by
  rw [BitVec.xor_assoc, ← BitVec.xor_assoc b b, BitVec.xor_self, BitVec.zero_xor]

theorem xor_ushiftRight_ushiftRight (y : Word) (n : Nat) :
    (y ^^^ y >>> 19) >>> n = y >>> n ^^^ y >>> (19 + n) := by
  rw [BitVec.ushiftRight_xor_distrib, ← BitVec.shiftRight_add]

/-- R83's shifts undo a XOR with the shift by 19: the sum telescopes, and the shift by 76 leaves nothing. -/
theorem xor_ushiftRight_inverse (y : Word) :
    (y ^^^ y >>> 19) ^^^ (y ^^^ y >>> 19) >>> 19 ^^^ (y ^^^ y >>> 19) >>> 38 ^^^ (y ^^^ y >>> 19) >>> 57 = y := by
  have hgone : y >>> 76 = 0#64 := BitVec.ushiftRight_eq_zero (by decide)
  simp only [xor_ushiftRight_ushiftRight, Nat.reduceAdd, xor_xor_cancel_middle]
  rw [hgone, BitVec.xor_zero]

theorem transitionInv_leftInverse : Function.LeftInverse transitionInv transition := by
  rintro ⟨x, y⟩
  simp only [transitionInv, transition, Config.shiftAmount, xor_ushiftRight_inverse]
  rw [BitVec.xor_assoc, BitVec.xor_self, BitVec.xor_zero]

/-- There are finitely many pairs, so that a left inverse of `F` is a right inverse. -/
theorem transitionInv_rightInverse : Function.RightInverse transitionInv transition :=
  transitionInv_leftInverse.rightInverse_of_surjective
    (Finite.surjective_of_injective transitionInv_leftInverse.injective)

/-- Settles O26. -/
theorem transitionHasInverse : Obligations.TransitionHasInverse := fun g =>
  ⟨transitionInv_leftInverse g, transitionInv_rightInverse g⟩

/-- Settles O30: the drawn word is the new `y` plus `h` of the new `x`, and `F` is undone by its inverse. -/
theorem outputIsReversible : Obligations.OutputIsReversible := by
  intro g
  have hy : (advance 1 g).2 = rawWord g 1 - foldSquare (advance 1 g).1 := (BitVec.add_sub_cancel _ _).symm
  refine ⟨hy, ?_⟩
  rw [← hy]
  exact transitionInv_leftInverse g

/-! The period (R85): every pair but `(0, 0)` lies on the cycle of `unitGen`. -/

/-- From every pair but `(0, 0)`, `F` first returns after exactly `2^128 - 1` steps. -/
theorem minimalPeriod_transition {g : Gen} (hg : g ≠ (0, 0)) : Function.minimalPeriod transition g = fullPeriod := by
  obtain ⟨k, -, rfl⟩ := exists_iterate_eq transitionInv_leftInverse.injective transition_zeroGen (u := unitGen) (by decide)
    (by rw [card_gen, minimalPeriod_unitGen]) hg
  have hper : unitGen ∈ Function.periodicPts transition :=
    Function.minimalPeriod_pos_iff_mem_periodicPts.1 (by rw [minimalPeriod_unitGen]; decide)
  rw [Function.minimalPeriod_apply_iterate hper, minimalPeriod_unitGen]

/-- The first `2^128 - 1` pairs from any pair but `(0, 0)` are all those pairs, each once. -/
theorem advance_bijOn {g : Gen} (hg : g ≠ (0, 0)) :
    Set.BijOn (fun k => advance k g) (Set.Iio fullPeriod) {h | h ≠ (0, 0)} := by
  refine ⟨fun k _ => advance_ne_zero k hg, ?_, fun h hh => ?_⟩
  · simp only [advance_eq_iterate, ← minimalPeriod_transition hg]
    exact Function.iterate_injOn_Iio_minimalPeriod
  · obtain ⟨k, hk, hkh⟩ := exists_iterate_eq transitionInv_leftInverse.injective transition_zeroGen hg
      (by rw [card_gen, minimalPeriod_transition hg]) hh
    rw [minimalPeriod_transition hg] at hk
    exact ⟨k, hk, (advance_eq_iterate k g).trans hkh⟩

/-- Settles O28: the period of every pair but `(0, 0)` is that of `unitGen`, and such a cycle holds them all. -/
theorem transition_fullPeriod : Obligations.FullPeriod := by
  refine ⟨transition_xorGen, fun g hg => ⟨?_, fun k hpos hk => ?_, fun h hh => (advance_bijOn hg).surjOn hh⟩⟩
  · rw [advance_eq_iterate]
    exact Function.isPeriodicPt_iff_minimalPeriod_dvd.2 (dvd_of_eq (minimalPeriod_transition hg))
  · rw [advance_eq_iterate]
    exact Function.not_isPeriodicPt_of_pos_of_lt_minimalPeriod hpos.ne' (by rwa [minimalPeriod_transition hg])

/-- Settles O27: a fixed point other than `(0, 0)` would have period 1. -/
theorem zeroPairIsIsolated : Obligations.ZeroPairIsIsolated := by
  intro g
  refine ⟨⟨fun h => ?_, ?_⟩, ⟨fun h => ?_, ?_⟩⟩
  · by_contra hg
    exact transition_ne_zero hg h
  · rintro rfl
    exact transition_zeroGen
  · by_contra hg
    have hone : Function.minimalPeriod transition g = 1 := Function.minimalPeriod_eq_one_iff_isFixedPt.2 h
    rw [minimalPeriod_transition hg] at hone
    exact absurd hone (by decide)
  · rintro rfl
    exact transition_zeroGen

/-! Equidistribution (R86): for each `x` there is one `y` with `G(x, y) = w`. -/

/-- The pairs whose output is `w`, one for each `x`. -/
theorem temper_fiber_eq_range (w : Word) :
    {h : Gen | temper h = w} = Set.range (fun x : Word => ((x, w - foldSquare x) : Gen)) := by
  ext ⟨x, y⟩
  constructor
  · rintro rfl
    exact ⟨x, Prod.ext rfl (BitVec.add_sub_cancel _ _)⟩
  · rintro ⟨x', hx'⟩
    obtain ⟨rfl, rfl⟩ := Prod.mk.inj hx'
    exact BitVec.sub_add_cancel _ _

theorem ncard_temper_fiber (w : Word) : {h : Gen | temper h = w}.ncard = 2 ^ 64 := by
  have hinj : Function.Injective (fun x : Word => ((x, w - foldSquare x) : Gen)) := fun _ _ h => congrArg Prod.fst h
  rw [temper_fiber_eq_range, Set.ncard_range_of_injective hinj, Nat.card_eq_fintype_card, card_word]

/-- `(0, 0)`, which no draw leaves, is one of the pairs whose output is 0. -/
theorem ncard_temper_fiber_ne_zero (w : Word) :
    {h : Gen | h ≠ (0, 0) ∧ temper h = w}.ncard = if w = 0 then 2 ^ 64 - 1 else 2 ^ 64 := by
  have hdiff : {h : Gen | h ≠ (0, 0) ∧ temper h = w} = {h | temper h = w} \ {(0, 0)} := Set.ext fun h => and_comm
  have hmem : (0, 0) ∈ {h : Gen | temper h = w} ↔ w = 0 := eq_comm
  rw [hdiff]
  split
  · rename_i hw
    rw [Set.ncard_sdiff_singleton_of_mem (hmem.2 hw), ncard_temper_fiber]
  · rename_i hw
    rw [Set.sdiff_singleton_eq_self (mt hmem.1 hw), ncard_temper_fiber]

/-- The `2^128 - 1` draws of a cycle leave every pair but `(0, 0)` once, so that those that answer `w` correspond to the pairs
whose output is `w`. -/
theorem draws_bijOn {g : Gen} (hg : g ≠ (0, 0)) (w : Word) :
    Set.BijOn (fun i => advance i g) {i | 1 ≤ i ∧ i ≤ fullPeriod ∧ rawWord g i = w} {h | h ≠ (0, 0) ∧ temper h = w} := by
  have hcycle := advance_bijOn (transition_ne_zero hg)
  refine ⟨fun i ⟨_, _, hw⟩ => ⟨advance_ne_zero i hg, hw⟩, ?_, ?_⟩
  · rintro (_ | i) ⟨hi, hi', -⟩ (_ | j) ⟨hj, hj', -⟩ hij
    · rfl
    · omega
    · omega
    · exact congrArg (· + 1) (hcycle.injOn hi' hj' hij)
  · rintro h ⟨hh, hw⟩
    obtain ⟨k, hk, rfl⟩ := hcycle.surjOn hh
    exact ⟨k + 1, ⟨Nat.le_add_left 1 k, hk, hw⟩, rfl⟩

/-- Settles O29: the draws correspond to the pairs whose output is `w`, and these are counted. -/
theorem equidistribution : Obligations.Equidistribution := by
  intro g w hg
  exact (draws_bijOn hg w).ncard_eq.trans (ncard_temper_fiber_ne_zero w)

/-! The square (R89). -/

/-- Settles O31: the product is exact, and expands over the two halves of `x`. -/
theorem partialProducts : Obligations.PartialProducts := by
  intro x
  have hx : x.toNat = x.toNat / 2 ^ 32 * 2 ^ 32 + x.toNat % 2 ^ 32 := (Nat.div_add_mod' _ _).symm
  rw [mulw_toNat]
  generalize x.toNat / 2 ^ 32 = xh, x.toNat % 2 ^ 32 = xl at hx
  rw [hx]
  ring

end Sys2Proof.Machine
end

section
/-! The obligations of 40_transition_output.md on the command `U64` (R90) and runs of it (R91). -/

namespace Sys2Proof.Machine

/-- The two shifts and the OR of R8 are the rotation. -/
theorem rotr_seven_eq (a : Word) : rotr a 7 = a.rotateRight 7 := rfl

theorem lo64_mulw (a b : Word) : lo64 (mulw a b) = BitVec.ofNat 64 (a.toNat * b.toNat % 2 ^ 64) :=
  BitVec.eq_of_toNat_eq (by rw [lo64_toNat, mulw_toNat, BitVec.toNat_ofNat, Nat.mod_mod])

theorem hi64_mulw (a b : Word) : hi64 (mulw a b) = BitVec.ofNat 64 (a.toNat * b.toNat / 2 ^ 64) := by
  rw [← mulw_toNat, ← hi64_toNat, BitVec.ofNat_toNat, BitVec.setWidth_eq]

/-- With a state, `U64` makes one draw and answers it (R90). -/
theorem execU64_seeded {s : State} (hs : s.seeded = true) :
    execU64 s = .next ((s.setPair (advance 1 s.pair)).respond (rawWord s.pair 1)) :=
  if_neg (by simp [hs])

/-- Settles O25: the pair and the word of one draw, written out. -/
theorem u64DrawsOneWord : Obligations.U64DrawsOneWord := by
  intro s
  refine ⟨fun hs => ?_, fun hs => exec_unseeded (by simp) hs⟩
  simp only [← rotr_seven_eq, ← lo64_mulw, ← hi64_mulw]
  exact execU64_seeded hs

/-- A step on a presented `U64`, with a state. -/
theorem step_u64 {s : State} {rest : List Input} (hs : s.seeded = true)
    (hi : s.inputs = .command (encode .u64) :: rest) :
    step s = .next (((s.accept rest).setPair (advance 1 s.pair)).respond (rawWord s.pair 1)) :=
  (stepRunsDecodedCommand s _ rest .u64 hi (decodeOfEncode .u64)).trans (execU64_seeded (s := s.accept rest) hs)

/-- Settles O32, by induction on `k`: the first command draws once, and the others count on from the pair it leaves. -/
theorem sequenceLaw : Obligations.SequenceLaw := by
  intro k
  induction k with
  | zero =>
    intro s rest hs hi
    obtain rfl : s.inputs = rest := hi
    rw [run_zero]
    simp [State.pair]
  | succ k ih =>
    intro s rest hs hi
    refine (run_succ_of_next (step_u64 hs hi) k).trans ((ih _ rest ?_ ?_).trans ?_)
    · exact hs
    · rfl
    · simp [List.range_succ_eq_map, rawWord_transition, Function.comp_def]

end Sys2Proof.Machine
end

section
/-! The obligations of 41_seed_and_state.md: `SEED` (R102), the reference mixer (R103), `LDS` (R104), the commands that read the
state (R105 to R107) and seeding alike (R108). -/

namespace Sys2Proof.Machine

/-! The commands that establish a state: what they leave does not depend on the state they find. -/

/-- `LDS` of a pair other than `(0, 0)` establishes it (R104). -/
theorem execLds_of_ne_zero {x y : Word} (h : (x, y) ≠ ((0, 0) : Gen)) (s : State) :
    execLds x y s = .next ((s.establish (x, y)).respond 0) :=
  if_neg fun ⟨hx, hy⟩ => h (Prod.ext hx hy)

/-- `SEED`, and `LDS` of a pair other than `(0, 0)`, establish one pair from every state (R102, R104). -/
theorem exec_establishes {i : Instr} (hi : (∃ v, i = .seed v) ∨ ∃ x y, (x, y) ≠ ((0, 0) : Gen) ∧ i = .lds x y) :
    ∃ g, ∀ s, exec i s = .next ((s.establish g).respond 0) := by
  rcases hi with ⟨v, rfl⟩ | ⟨x, y, hne, rfl⟩
  · exact ⟨seedPair Config.seedExpand Config.seedFallback v, fun _ => rfl⟩
  · exact ⟨(x, y), execLds_of_ne_zero hne⟩

/-- A state established overwrites `X`, `Y` and `SEEDED`, whatever they were. -/
theorem establish_accept_congr {s t : State} (h : t = { s with x := t.x, y := t.y, seeded := t.seeded }) (g : Gen)
    (rest : List Input) : (s.accept rest).establish g = (t.accept rest).establish g := by
  rw [h]
  rfl

/-- Settles O37: the first steps lead to one state, from which both runs go on. -/
theorem seedingIsDeterministic : Obligations.SeedingIsDeterministic := by
  intro s t i rest n hi hs hst
  have ht : t.inputs = .command (encode i) :: rest := by
    rw [hst]
    exact hs
  obtain ⟨g, hg⟩ := exec_establishes hi
  refine run_succ_congr ?_ n
  calc step s = exec i (s.accept rest) := stepRunsDecodedCommand s _ rest i hs (decodeOfEncode i)
    _ = exec i (t.accept rest) := by rw [hg, hg, establish_accept_congr hst]
    _ = step t := (stepRunsDecodedCommand t _ rest i ht (decodeOfEncode i)).symm

/-- Settles O33: `SEED` establishes `seedPair`, which is never `(0, 0)`. -/
theorem seedEstablishesState : Obligations.SeedEstablishesState := fun v _ =>
  ⟨rfl, seedPair_ne_zero Config.seedExpand seedFallback_ne_zero v⟩

theorem execLds_zero (s : State) : execLds 0 0 s = .next (s.raise .zeroState) := if_pos ⟨rfl, rfl⟩

/-- Settles O34: the one check of `LDS` is for the pair `(0, 0)`. -/
theorem ldsLoadsNonZeroPair : Obligations.LdsLoadsNonZeroPair := fun _ _ s =>
  ⟨fun h => execLds_of_ne_zero h s, execLds_zero s⟩

/-! The commands that read the state. -/

theorem execGetx_seeded {s : State} (hs : s.seeded = true) : execGetx s = .next (s.respond s.x) :=
  if_neg (by simp [hs])

theorem execGety_seeded {s : State} (hs : s.seeded = true) : execGety s = .next (s.respond s.y) :=
  if_neg (by simp [hs])

/-- Settles O35. -/
theorem getReadsRegister : Obligations.GetReadsRegister := fun _ =>
  ⟨fun hs => ⟨execGetx_seeded hs, execGety_seeded hs⟩, fun hs => ⟨exec_unseeded (by simp) hs, exec_unseeded (by simp) hs⟩⟩

/-- Bit 0 of a bit extended with zeros is that bit, and the others are 0 (R9). -/
theorem getLsbD_zextBit (b : Bool) (i : Nat) : (zextBit b).getLsbD i = (b && decide (i = 0)) := by
  cases b with
  | false => exact BitVec.getLsbD_zero
  | true => exact BitVec.getLsbD_one.trans (by simp)

/-- Settles O36: the value is `SEEDED` extended with zeros. -/
theorem statReadsStatus : Obligations.StatReadsStatus := by
  intro s
  refine ⟨statusWord s, rfl, (getLsbD_zextBit ..).trans (by simp), fun i hi => (getLsbD_zextBit ..).trans ?_⟩
  have hne : i ≠ 0 := by omega
  simp [hne]

/-! The reference mixer (R103): shifts XORed in, and products with odd words, both of which can be undone. -/

/-- The XOR of a word with its own right shift by `n`. -/
def xorShift (n : Nat) (z : Word) : Word := z ^^^ (z >>> n)

/-- `xorShift` is linear, and only 0 equals its own right shift. -/
theorem xorShift_injective {n : Nat} (hn : n ≠ 0) : Function.Injective (xorShift n) := by
  intro z w h
  have hshift : z ^^^ w = (z ^^^ w) >>> n := by
    rw [← BitVec.xor_eq_zero_iff, BitVec.ushiftRight_xor_distrib]
    calc (z ^^^ w) ^^^ (z >>> n ^^^ w >>> n) = xorShift n z ^^^ xorShift n w := by
          simp only [xorShift]; ac_rfl
      _ = 0 := BitVec.xor_eq_zero_iff.2 h
  have hdiv : (z ^^^ w).toNat = (z ^^^ w).toNat / 2 ^ n := by
    conv_lhs => rw [hshift, BitVec.toNat_ushiftRight, Nat.shiftRight_eq_div_pow]
  have hzero : (z ^^^ w).toNat = 0 := (Nat.div_eq_self.1 hdiv.symm).resolve_right (by simp [hn])
  exact BitVec.xor_eq_zero_iff.1 (BitVec.eq_of_toNat_eq hzero)

/-- `mix` as three XORs with shifts and two products between them (R103). -/
theorem seedMix_eq_comp : seedMix = xorShift 31 ∘ (· * 0x94D049BB133111EB) ∘ xorShift 27 ∘ (· * 0xBF58476D1CE4E5B9) ∘
    xorShift 30 := rfl

theorem isUnit_seedMix_factors : IsUnit (0xBF58476D1CE4E5B9 : Word) ∧ IsUnit (0x94D049BB133111EB : Word) :=
  ⟨IsUnit.of_mul_eq_one 0x96DE1B173F119089 (by decide), IsUnit.of_mul_eq_one 0x319642B2D24D8EC3 (by decide)⟩

theorem seedMix_injective : Function.Injective seedMix := by
  obtain ⟨hfirst, hsecond⟩ := isUnit_seedMix_factors
  rw [seedMix_eq_comp]
  exact (xorShift_injective (by decide)).comp <| hsecond.mul_left_injective.comp <|
    (xorShift_injective (by decide)).comp <| hfirst.mul_left_injective.comp <| xorShift_injective (by decide)

/-- Settles O38: an injection of a finite type is a bijection, and the two words of an expansion are mixed from different ones. -/
theorem referenceSeedingIsNeverZero : Obligations.ReferenceSeedingIsNeverZero := by
  refine ⟨seedMix_injective.bijective_of_finite, fun v h => ?_⟩
  obtain ⟨hx, hy⟩ := Prod.mk.inj h
  have hsame : v + 0x9E3779B97F4A7C15 = v + 0x9E3779B97F4A7C15 + 0x9E3779B97F4A7C15 :=
    seedMix_injective (hx.trans hy.symm)
  exact absurd (left_eq_add.1 hsame) (by decide)

end Sys2Proof.Machine
end

section
/-! The obligations of 42_bounded_integer.md: the span and the threshold (R122, R124, R128), how many raw words give each value
(R127), and the command `BTW` in closed form (R123 to R129). -/

namespace Sys2Proof.Machine

/-! The span and the threshold, as numbers. -/

/-- The wrapped span is 0 exactly where the exact span is `2^64` (R122). -/
theorem spanOf_eq_zero_iff {lo hi : Word} (hle : lo ≤ hi) :
    spanOf lo hi = 0 ↔ hi.toNat - lo.toNat + 1 = 2 ^ 64 := by
  have hhi := hi.isLt
  rw [← BitVec.toNat_inj, spanOf_toNat hle]
  change _ = 0 ↔ _
  omega

/-- The exact span is `2^64` for the full range only (R122). -/
theorem exactSpan_eq_iff (lo hi : Word) :
    hi.toNat - lo.toNat + 1 = 2 ^ 64 ↔ lo = 0 ∧ hi = 0xFFFFFFFFFFFFFFFF := by
  have hhi := hi.isLt
  rw [← BitVec.toNat_inj, ← BitVec.toNat_inj]
  change _ ↔ lo.toNat = 0 ∧ hi.toNat = 2 ^ 64 - 1
  omega

/-- The remainder by a number not above the dividend is below half of the dividend. -/
theorem two_mul_mod_lt {m n : Nat} (hn : 0 < n) (h : n ≤ m) : 2 * (m % n) < m := by
  have hlt : m % n < n := Nat.mod_lt m hn
  have hle : m % n ≤ m - n := by
    rw [Nat.mod_eq_sub_mod h]
    exact Nat.mod_le _ _
  omega

/-- The words that divide `2^64` are the powers of two (R128). -/
theorem two_pow_mod_eq_zero_iff (w : Word) : 2 ^ 64 % w.toNat = 0 ↔ ∃ e, w.toNat = 2 ^ e := by
  rw [← Nat.dvd_iff_mod_eq_zero]
  constructor
  · intro h
    obtain ⟨e, -, he⟩ := (Nat.dvd_prime_pow Nat.prime_two).1 h
    exact ⟨e, he⟩
  · rintro ⟨e, he⟩
    have hlt : 2 ^ e < 2 ^ 64 := he ▸ w.isLt
    rw [he]
    exact Nat.pow_dvd_pow 2 ((Nat.pow_lt_pow_iff_right (by decide)).1 hlt).le

/-- Settles O45: `t` is a remainder of `2^64` by the span. -/
theorem rejectionThreshold : Obligations.RejectionThreshold := by
  intro span h0
  have ht := threshold_toNat span h0
  have hhalf := two_mul_mod_lt (BitVec.toNat_pos_of_ne_zero h0) span.isLt.le
  refine ⟨ht, threshold_lt span h0, by omega, ?_⟩
  rw [← two_pow_mod_eq_zero_iff, ← ht, ← BitVec.toNat_inj]
  rfl

/-! Unbiasedness (R127): the accepted words that give one value are as many as the multiples of the span in an interval whose
length is a multiple of the span. -/

/-- Any `q * n` consecutive numbers hold exactly `q` multiples of `n`: their quotients are consecutive too. -/
theorem setOf_mul_mem_Ico_eq {n : Nat} (hn : 0 < n) (a q : Nat) :
    {r : Nat | a ≤ n * r ∧ n * r < a + n * q} = Set.Ico (a ⌈/⌉ n) (a ⌈/⌉ n + q) := by
  have hshift : (a + n * q) ⌈/⌉ n = a ⌈/⌉ n + q := by
    rw [Nat.ceilDiv_eq_add_pred_div, Nat.ceilDiv_eq_add_pred_div, ← Nat.add_mul_div_left _ _ hn]
    congr 1
    omega
  ext r
  rw [Set.mem_Ico, ← hshift, ceilDiv_le_iff_le_mul hn, ← not_le (b := r), ceilDiv_le_iff_le_mul hn, not_le]
  rfl

/-- A word is accepted and gives `v` exactly if its product with the span lies in `[v * 2^64 + t, (v + 1) * 2^64)` (R127). -/
theorem accepted_and_hi64_eq_iff {span : Word} (h0 : span ≠ 0) (r v : Word) :
    (¬ lo64 (mulw r span) < threshold span ∧ hi64 (mulw r span) = v) ↔
      v.toNat * 2 ^ 64 + 2 ^ 64 % span.toNat ≤ span.toNat * r.toNat ∧
        span.toNat * r.toNat < v.toNat * 2 ^ 64 + 2 ^ 64 := by
  have ht : 2 ^ 64 % span.toNat < 2 ^ 64 := by
    rw [← threshold_toNat span h0]
    exact BitVec.isLt _
  rw [BitVec.lt_def, ← BitVec.toNat_inj, lo64_toNat, hi64_toNat, mulw_toNat, threshold_toNat span h0, Nat.mul_comm r.toNat]
  omega

/-- The accepted words that give `v < span`, as numbers: one run of consecutive ones (R127). -/
theorem image_accepted_eq_Ico {span v : Word} (hv : v < span) :
    BitVec.toNat '' {r : Word | ¬ lo64 (mulw r span) < threshold span ∧ hi64 (mulw r span) = v} =
      Set.Ico ((v.toNat * 2 ^ 64 + 2 ^ 64 % span.toNat) ⌈/⌉ span.toNat)
        ((v.toNat * 2 ^ 64 + 2 ^ 64 % span.toNat) ⌈/⌉ span.toNat + 2 ^ 64 / span.toNat) := by
  have hv : v.toNat < span.toNat := hv
  have hpos : 0 < span.toNat := Nat.zero_lt_of_lt hv
  have h0 : span ≠ 0 := fun h => hpos.ne' (congrArg BitVec.toNat h)
  have hsplit : 2 ^ 64 % span.toNat + span.toNat * (2 ^ 64 / span.toNat) = 2 ^ 64 := Nat.mod_add_div _ _
  rw [← setOf_mul_mem_Ico_eq hpos, Nat.add_assoc, hsplit]
  ext r
  constructor
  · rintro ⟨r, hr, rfl⟩
    exact (accepted_and_hi64_eq_iff h0 r v).1 hr
  · rintro ⟨hlow, hhigh⟩
    have hlt : r < 2 ^ 64 := by
      refine Nat.lt_of_mul_lt_mul_left (a := span.toNat) (hhigh.trans_le ?_)
      rw [← Nat.succ_mul]
      exact Nat.mul_le_mul_right _ hv
    have hofNat : (BitVec.ofNat 64 r).toNat = r := (BitVec.toNat_ofNat r 64).trans (Nat.mod_eq_of_lt hlt)
    refine ⟨BitVec.ofNat 64 r, (accepted_and_hi64_eq_iff h0 _ v).2 ?_, hofNat⟩
    rw [hofNat]
    exact ⟨hlow, hhigh⟩

/-- Settles O44: a run of consecutive numbers is counted by its ends. -/
theorem btwIsUnbiased : Obligations.BtwIsUnbiased := by
  intro span v hv
  rw [← Set.ncard_image_of_injective _ (fun _ _ => BitVec.eq_of_toNat_eq), image_accepted_eq_Ico hv, Set.ncard_Ico_nat,
    Nat.add_sub_cancel_left, ← Nat.div_eq_sub_mod_div]

/-! The draw the sampler accepts: there is at most one first one, and the loop's bound hides none (R129, log entry 9). -/

/-- `F` is a bijection, so that the pairs go round a cycle of at most `2^128` (R83): every pair met is met before that. -/
theorem exists_advance_eq (n : Nat) (g : Gen) : ∃ m < redrawBound, advance m g = advance n g := by
  have hpos : 0 < Function.minimalPeriod transition g :=
    Function.minimalPeriod_pos_of_mem_periodicPts (transitionInv_leftInverse.injective.mem_periodicPts g)
  have hcard : Function.minimalPeriod transition g ≤ redrawBound := Function.minimalPeriod_le_card.trans card_gen.le
  refine ⟨n % Function.minimalPeriod transition g, (Nat.mod_lt n hpos).trans_le hcard, ?_⟩
  simp only [advance_eq_iterate, Function.iterate_mod_minimalPeriod_eq]

/-- What draw `k` answers is answered among the first `2^128` draws. -/
theorem exists_rawWord_eq (g : Gen) {k : Nat} (hk : 1 ≤ k) :
    ∃ j, 1 ≤ j ∧ j ≤ redrawBound ∧ rawWord g j = rawWord g k := by
  obtain ⟨i, rfl⟩ : ∃ i, k = i + 1 := ⟨k - 1, by omega⟩
  obtain ⟨m, hm, hmi⟩ := exists_advance_eq i (transition g)
  exact ⟨m + 1, Nat.le_add_left 1 m, hm, congrArg temper hmi⟩

theorem FirstAccepted.pos {lo hi : Word} {g : Gen} {k : Nat} (hk : FirstAccepted lo hi g k) : 1 ≤ k := hk.1

theorem FirstAccepted.unique {lo hi : Word} {g : Gen} {j k : Nat} (hj : FirstAccepted lo hi g j)
    (hk : FirstAccepted lo hi g k) : j = k := by
  obtain ⟨hj1, hjrej, hjacc⟩ := hj
  obtain ⟨hk1, hkrej, hkacc⟩ := hk
  refine Nat.le_antisymm (Nat.le_of_not_lt fun h => ?_) (Nat.le_of_not_lt fun h => ?_)
  · exact Nat.not_lt.2 hkacc (hjrej k hk1 h)
  · exact Nat.not_lt.2 hjacc (hkrej j hj1 h)

/-- Up to any draw that is accepted, one is the first. -/
theorem exists_firstAccepted_le {lo hi : Word} {g : Gen} {k : Nat} (hk : 1 ≤ k)
    (hacc : 2 ^ 64 % (hi.toNat - lo.toNat + 1) ≤ (rawWord g k).toNat * (hi.toNat - lo.toNat + 1) % 2 ^ 64) :
    ∃ j ≤ k, FirstAccepted lo hi g j := by
  have hex : ∃ i, 1 ≤ i ∧
      2 ^ 64 % (hi.toNat - lo.toNat + 1) ≤ (rawWord g i).toNat * (hi.toNat - lo.toNat + 1) % 2 ^ 64 := ⟨k, hk, hacc⟩
  obtain ⟨hpos, hfound⟩ := Nat.find_spec hex
  exact ⟨Nat.find hex, Nat.find_min' hex ⟨hk, hacc⟩, hpos,
    fun j h1 hlt => Nat.lt_of_not_le fun h => Nat.find_min hex hlt ⟨h1, h⟩, hfound⟩

/-- A sampler that answers nothing rejects every draw there is: the draws it followed go round their cycle (R129). -/
theorem rejected_of_between_eq_none {lo hi : Word} {g : Gen} (h : between lo hi g = none) :
    spanOf lo hi ≠ 0 ∧ ∀ k, 1 ≤ k → Rejected (spanOf lo hi) (threshold (spanOf lo hi)) g k := by
  have h0 : spanOf lo hi ≠ 0 := fun h0 => Option.some_ne_none _ ((if_pos h0).symm.trans h)
  refine ⟨h0, fun k hk => ?_⟩
  rw [between, if_neg h0, sample_eq] at h
  split at h
  · obtain ⟨j, hj1, hjb, hjk⟩ := exists_rawWord_eq g hk
    have hj := redraw_none (Option.map_eq_none_iff.1 h) j hj1 (by omega)
    rwa [Rejected, hjk] at hj
  · cases h

/-- The first draw that is accepted is none that the loop rejects (R124). -/
theorem FirstAccepted.not_rejected {lo hi : Word} {g : Gen} {k : Nat} (hk : FirstAccepted lo hi g k) (hle : lo ≤ hi)
    (h0 : spanOf lo hi ≠ 0) : ¬ Rejected (spanOf lo hi) (threshold (spanOf lo hi)) g k := by
  obtain ⟨-, -, hacc⟩ := hk
  have hhi := hi.isLt
  have hne := mt (spanOf_eq_zero_iff hle).2 h0
  rw [rejected_iff hle (by omega)]
  exact Nat.not_lt.2 hacc

/-- The value of `BTW lo, hi` for the accepted word `r`: `lo + floor(r n / 2^64)`, `n` the exact span (R128). -/
def btwValue (lo hi r : Word) : Word := BitVec.ofNat 64 (lo.toNat + r.toNat * (hi.toNat - lo.toNat + 1) / 2 ^ 64)

/-- The sampler answers with the first draw that is accepted, however late (R123, R128). -/
theorem between_of_firstAccepted {lo hi : Word} {g : Gen} {k : Nat} (hle : lo ≤ hi) (hk : FirstAccepted lo hi g k) :
    between lo hi g = some (btwValue lo hi (rawWord g k), advance k g) := by
  cases hb : between lo hi g with
  | none =>
    obtain ⟨h0, hrej⟩ := rejected_of_between_eq_none hb
    exact absurd (hrej k hk.pos) (hk.not_rejected hle h0)
  | some r =>
    obtain ⟨j, hj, hr⟩ := between_first hle hb
    rw [hr, hj.unique hk, btwValue]

/-- The sampler answers nothing exactly if it rejects every draw there is. -/
theorem between_eq_none_iff {lo hi : Word} {g : Gen} (hle : lo ≤ hi) :
    between lo hi g = none ↔
      spanOf lo hi ≠ 0 ∧ ∀ k, 1 ≤ k → Rejected (spanOf lo hi) (threshold (spanOf lo hi)) g k := by
  refine ⟨rejected_of_between_eq_none, fun ⟨h0, hrej⟩ => Option.eq_none_iff_forall_ne_some.2 fun r hb => ?_⟩
  obtain ⟨k, hk, -⟩ := between_first hle hb
  exact hk.not_rejected hle h0 (hrej k hk.pos)

/-! The command `BTW` (R131), by what the sampler answers. -/

theorem execBtw_range {lo hi : Word} {s : State} (hs : s.seeded = true) (hlt : hi < lo) :
    execBtw lo hi s = .next (s.raise .range) := by
  rw [execBtw, if_neg (by simp [hs]), if_pos hlt]

theorem execBtw_of_some {lo hi : Word} {s : State} {r : Word × Gen} (hs : s.seeded = true) (hle : lo ≤ hi)
    (hb : between lo hi s.pair = some r) : execBtw lo hi s = .next ((s.setPair r.2).respond r.1) := by
  rw [execBtw, if_neg (by simp [hs]), if_neg (BitVec.not_lt.2 hle), hb]

theorem execBtw_of_none {lo hi : Word} {s : State} (hs : s.seeded = true) (hle : lo ≤ hi)
    (hb : between lo hi s.pair = none) : execBtw lo hi s = .fault .samplerNeverAccepts := by
  rw [execBtw, if_neg (by simp [hs]), if_neg (BitVec.not_lt.2 hle), hb]

/-- `BTW` in closed form: the pair and the value of the first draw that is accepted (R128). -/
theorem execBtw_of_firstAccepted {lo hi : Word} {s : State} {k : Nat} (hs : s.seeded = true) (hle : lo ≤ hi)
    (hk : FirstAccepted lo hi s.pair k) :
    execBtw lo hi s = .next ((s.setPair (advance k s.pair)).respond (btwValue lo hi (rawWord s.pair k))) :=
  execBtw_of_some hs hle (between_of_firstAccepted hle hk)

/-- The full range is one draw, unchanged (R123). -/
theorem between_fullRange (g : Gen) : between 0 0xFFFFFFFFFFFFFFFF g = some (nextWord g) := if_pos (by decide)

/-- Settles O39: the span of the full range wraps to 0, and then the sampler is one draw. -/
theorem btwFullRange : Obligations.BtwFullRange :=
  ⟨fun lo hi hle => (spanOf_eq_zero_iff hle).trans (exactSpan_eq_iff lo hi),
    fun s hs => execBtw_of_some hs (by decide) (between_fullRange s.pair)⟩

/-- With equal bounds the first draw is accepted: nothing is below `2^64 mod 1` (R125). -/
theorem firstAccepted_one_of_eq (v : Word) (g : Gen) : FirstAccepted v v g 1 :=
  ⟨Nat.le_refl 1, fun j h1 h2 => by omega, by rw [Nat.sub_self, Nat.zero_add, Nat.mod_one]; exact Nat.zero_le _⟩

/-- A word is below `2^64`, so that it adds nothing to the bound (R125). -/
theorem btwValue_self (v r : Word) : btwValue v v r = v := by
  rw [btwValue, Nat.sub_self, Nat.zero_add, Nat.mul_one, Nat.div_eq_of_lt r.isLt, Nat.add_zero, BitVec.ofNat_toNat,
    BitVec.setWidth_eq]

/-- Settles O40: the first draw is accepted, and its value is the bound. -/
theorem btwEqualBounds : Obligations.BtwEqualBounds := by
  intro v s hs
  have h := execBtw_of_firstAccepted hs (BitVec.le_refl v) (firstAccepted_one_of_eq v s.pair)
  rwa [btwValue_self] at h

/-- Settles O41: the hypotheses say that draw `k` is the first that is accepted. -/
theorem btwClosedForm : Obligations.BtwClosedForm := fun _ _ _ _ hs hle _ hk hrej hacc =>
  execBtw_of_firstAccepted hs hle ⟨hk, hrej, hacc⟩

/-- Settles O42: the checks answer a next state, and behind them the fault is the sampler's. -/
theorem btwStuckOnlyIfEndless : Obligations.BtwStuckOnlyIfEndless := by
  intro lo hi s
  change execBtw lo hi s = _ ↔ _
  constructor
  · intro h
    have hs : s.seeded = true := by
      have hcase := execBtw_case lo hi s
      rw [h] at hcase
      cases hcase with
      | stuck hs => exact hs
    have hle : lo ≤ hi := BitVec.not_lt.1 fun hlt => by
      rw [execBtw_range hs hlt] at h
      cases h
    refine ⟨hs, hle, (between_eq_none_iff hle).1 (Option.eq_none_iff_forall_ne_some.2 fun r hb => ?_)⟩
    rw [execBtw_of_some hs hle hb] at h
    cases h
  · rintro ⟨hs, hle, hrej⟩
    exact execBtw_of_none hs hle ((between_eq_none_iff hle).2 hrej)

/-- What a draw adds to `lo` is less than the exact span, so that the sum does not wrap (R126). -/
theorem btwValue_mem {lo hi : Word} (hle : lo ≤ hi) (r : Word) :
    lo ≤ btwValue lo hi r ∧ btwValue lo hi r ≤ hi := by
  have hle : lo.toNat ≤ hi.toNat := hle
  have hhi := hi.isLt
  have hoff : r.toNat * (hi.toNat - lo.toNat + 1) / 2 ^ 64 < hi.toNat - lo.toNat + 1 :=
    Nat.div_lt_of_lt_mul (Nat.mul_lt_mul_of_pos_right r.isLt (Nat.succ_pos _))
  rw [BitVec.le_def, BitVec.le_def, btwValue, BitVec.toNat_ofNat, Nat.mod_eq_of_lt (by omega)]
  omega

/-- Settles O43: whatever `BTW` answers, behind its checks, is a value of the closed form. -/
theorem btwValueInRange : Obligations.BtwValueInRange := by
  intro lo hi s t hs hle h
  change execBtw lo hi s = .next t at h
  cases hb : between lo hi s.pair with
  | none =>
    rw [execBtw_of_none hs hle hb] at h
    cases h
  | some r =>
    rw [execBtw_of_some hs hle hb] at h
    obtain rfl := Host.Outcome.next.inj h
    obtain ⟨k, -, rfl⟩ := between_first hle hb
    exact ⟨_, rfl, btwValue_mem hle (rawWord s.pair k)⟩

/-! Termination (R129): on the cycle of every pair but `(0, 0)` the word 1 is drawn, which every span accepts. -/

/-- From a pair other than `(0, 0)` the word 1 is drawn within `2^128 - 1` draws (R86): the cycle holds the pair `(0, 1)`, whose
output it is. -/
theorem exists_rawWord_eq_one {g : Gen} (hg : g ≠ (0, 0)) : ∃ i, 1 ≤ i ∧ i ≤ fullPeriod ∧ rawWord g i = 1 := by
  obtain ⟨i, hi, -⟩ := (draws_bijOn hg 1).surjOn (show (0, 1) ∈ {h : Gen | h ≠ (0, 0) ∧ temper h = 1} by decide)
  exact ⟨i, hi⟩

/-- The word 1 is accepted: its `frac` is the span, or 0 where the threshold is too (R129). -/
theorem two_pow_mod_le_one_mul_mod {n : Nat} (hn : 0 < n) (hle : n ≤ 2 ^ 64) : 2 ^ 64 % n ≤ 1 * n % 2 ^ 64 := by
  rcases hle.eq_or_lt with rfl | hlt
  · decide
  · rw [Nat.one_mul, Nat.mod_eq_of_lt hlt]
    exact (Nat.mod_lt _ hn).le

/-- Settles O46: the word 1 is drawn and would be accepted, so that some draw no later is the first that is. -/
theorem btwAlwaysEnds : Obligations.BtwAlwaysEnds := by
  intro lo hi s hs hg hle
  have hhi := hi.isLt
  obtain ⟨i, hpos, hbound, hone⟩ := exists_rawWord_eq_one hg
  obtain ⟨k, hki, hk⟩ := exists_firstAccepted_le hpos (lo := lo) (hi := hi) (by
    rw [hone]
    exact two_pow_mod_le_one_mul_mod (Nat.succ_pos _) (by omega))
  exact ⟨k, hk, hki.trans hbound, execBtw_of_firstAccepted hs hle hk⟩

end Sys2Proof.Machine
end

section
/-! The obligations of 43_float.md: the pattern `F64` answers (R142), the number it stands for (R141, R145), how many raw words give
each number (R146), and the command (R144). -/

namespace Sys2Proof.Machine

/-! The pattern of `k`, as a number (R142). -/

/-- The search from bit `n` down finds the position `e` of the most significant 1 bit. -/
theorem topBitFrom_eq {k : Word} {e n : Nat} (hlow : 2 ^ e ≤ k.toNat) (hhigh : k.toNat < 2 ^ (e + 1)) (hen : e ≤ n) :
    topBitFrom k n = e := by
  induction n with
  | zero => exact (Nat.le_zero.1 hen).symm
  | succ n ih =>
    rw [topBitFrom]
    rcases hen.eq_or_lt with rfl | hlt
    · exact if_pos (Nat.testBit_of_two_pow_le_and_two_pow_add_one_gt hlow hhigh)
    · have hbit : k.getLsbD (n + 1) = false :=
        Nat.testBit_lt_two_pow (hhigh.trans_le (Nat.pow_le_pow_right Nat.two_pos hlt))
      rw [hbit]
      exact ih (Nat.le_of_lt_succ hlt)

/-- Normalised, a number with top bit `e` has its leading 1 at bit 52. -/
theorem normalised_mem_Ico {k e : Nat} (hlow : 2 ^ e ≤ k) (hhigh : k < 2 ^ (e + 1)) (he : e ≤ 52) :
    k * 2 ^ (52 - e) ∈ Set.Ico (2 ^ 52) (2 ^ 53) := by
  have hpow (i : Nat) : 2 ^ (e + i) * 2 ^ (52 - e) = 2 ^ (52 + i) := by
    rw [← Nat.pow_add]
    congr 1
    omega
  exact ⟨(hpow 0).symm.trans_le (Nat.mul_le_mul_right _ hlow),
    (Nat.mul_lt_mul_of_pos_right hhigh (Nat.two_pow_pos _)).trans_eq (hpow 1)⟩

/-- The fraction field: normalised, without the leading 1. -/
theorem fraction_toNat {k : Word} {e : Nat} (hlow : 2 ^ e ≤ k.toNat) (hhigh : k.toNat < 2 ^ (e + 1)) (he : e ≤ 52) :
    ((k <<< (52 - e)) &&& 0x000FFFFFFFFFFFFF).toNat = k.toNat * 2 ^ (52 - e) - 2 ^ 52 := by
  obtain ⟨hmin, hmax⟩ := normalised_mem_Ico hlow hhigh he
  have hmask : (0x000FFFFFFFFFFFFF : Word).toNat = 2 ^ 52 - 1 := rfl
  rw [BitVec.toNat_and, BitVec.toNat_shiftLeft, Nat.shiftLeft_eq, hmask, Nat.and_two_pow_sub_one_eq_mod]
  omega

/-- The pattern of a number with top bit `e`: exponent field `970 + e`, sign bit 0. -/
theorem f64Bits_toNat {k : Word} {e : Nat} (hlow : 2 ^ e ≤ k.toNat) (hhigh : k.toNat < 2 ^ (e + 1)) (he : e ≤ 52) :
    (f64Bits k).toNat = (970 + e) * 2 ^ 52 + (k.toNat * 2 ^ (52 - e) - 2 ^ 52) := by
  have hk : k ≠ 0 := by
    rintro rfl
    exact absurd hlow (Nat.two_pow_pos e).not_ge
  have hfrac : k.toNat * 2 ^ (52 - e) - 2 ^ 52 < 2 ^ 52 := by
    obtain ⟨-, hmax⟩ := normalised_mem_Ico hlow hhigh he
    omega
  have hexp : (BitVec.ofNat 64 (970 + e) <<< 52).toNat = (970 + e) <<< 52 := by
    rw [BitVec.toNat_shiftLeft, BitVec.toNat_ofNat, Nat.shiftLeft_eq, Nat.shiftLeft_eq]
    omega
  rw [f64Bits, if_neg hk, topBitFrom_eq hlow hhigh he, BitVec.toNat_or, fraction_toNat hlow hhigh he, hexp,
    ← Nat.shiftLeft_add_eq_or_of_lt hfrac, Nat.shiftLeft_eq]

/-- The top bit of a number below `2^53` is one of bits 52 to 0. -/
theorem topBit_le {k e : Nat} (hk : k < 2 ^ 53) (hlow : 2 ^ e ≤ k) : e ≤ 52 :=
  Nat.le_of_lt_succ ((Nat.pow_lt_pow_iff_right Nat.one_lt_two).1 (hlow.trans_lt hk))

/-- Settles O49: a `k` below `2^53` has its top bit among bits 52 to 0, where `f64Bits_toNat` gives the pattern. -/
theorem quantizerPattern : Obligations.QuantizerPattern := by
  intro k hk
  refine ⟨fun h0 => if_pos h0, fun e hlow hhigh => ?_⟩
  have he := topBit_le hk hlow
  obtain ⟨-, hmax⟩ := normalised_mem_Ico hlow hhigh he
  exact ⟨f64Bits_toNat hlow hhigh he, by omega, by omega⟩

/-! The number a pattern stands for (R141, R145). -/

/-- A word below `2^53` other than 0 has a top bit. -/
theorem exists_topBit {k : Word} (h0 : k ≠ 0) (hk : k.toNat < 2 ^ 53) :
    ∃ e ≤ 52, 2 ^ e ≤ k.toNat ∧ k.toNat < 2 ^ (e + 1) :=
  have hlow := Nat.log2_self_le (BitVec.toNat_pos_of_ne_zero h0).ne'
  ⟨k.toNat.log2, topBit_le hk hlow, hlow, Nat.lt_log2_self⟩

/-- The sign bit is 0 (R142). -/
theorem f64Bits_toNat_lt {k : Word} (hk : k.toNat < 2 ^ 53) : (f64Bits k).toNat < 2 ^ 63 := by
  by_cases h0 : k = 0
  · rw [h0]
    decide
  · obtain ⟨e, he, hlow, hhigh⟩ := exists_topBit h0 hk
    obtain ⟨-, hmax⟩ := normalised_mem_Ico hlow hhigh he
    rw [f64Bits_toNat hlow hhigh he]
    omega

/-- How a pattern with sign bit 0 is read, its exponent field and fraction given (R142). -/
theorem f64Value_of_toNat_eq {v : Word} {E f : Nat} (hv : v.toNat = E * 2 ^ 52 + f) (hpos : 0 < E) (hf : f < 2 ^ 52)
    (hsign : v.toNat < 2 ^ 63) : f64Value v = (1 + (f : Rat) / 2 ^ 52) * 2 ^ ((E : Int) - 1023) := by
  have h0 : v ≠ 0 := by
    rintro rfl
    change 0 = _ at hv
    omega
  have hexp : v.toNat / 2 ^ 52 % 2 ^ 11 = E := by omega
  have hfrac : v.toNat % 2 ^ 52 = f := by omega
  have hbit : v.getLsbD 63 = false := Nat.testBit_lt_two_pow hsign
  rw [f64Value, if_neg h0, hbit, hexp, hfrac, if_neg Bool.false_ne_true, one_mul]

/-- The scale of the normalised form: `k * 2^(52 - e)`, in units of `2^-52`, times `2^(e - 53)` is `k / 2^53` (R141). -/
theorem normalised_scale {k e : Nat} (he : e ≤ 52) (hmin : 2 ^ 52 ≤ k * 2 ^ (52 - e)) :
    (1 + ((k * 2 ^ (52 - e) - 2 ^ 52 : Nat) : Rat) / 2 ^ 52) * 2 ^ (((970 + e : Nat) : Int) - 1023) = (k : Rat) / 2 ^ 53 := by
  obtain ⟨d, hd⟩ := Nat.exists_eq_add_of_le he
  have hexp : ((970 + e : Nat) : Int) - 1023 = -((d + 1 : Nat) : Int) := by omega
  have hsub : 52 - e = d := by omega
  rw [hexp, zpow_neg, zpow_natCast, Nat.cast_sub hmin, hsub]
  push_cast
  field_simp
  ring

/-- The pattern of `k` stands for `k / 2^53`, exactly (R141). -/
theorem f64Value_f64Bits {k : Word} (hk : k.toNat < 2 ^ 53) : f64Value (f64Bits k) = (k.toNat : Rat) / 2 ^ 53 := by
  by_cases h0 : k = 0
  · rw [h0]
    exact (zero_div _).symm
  · obtain ⟨e, he, hlow, hhigh⟩ := exists_topBit h0 hk
    obtain ⟨hmin, hmax⟩ := normalised_mem_Ico hlow hhigh he
    rw [f64Value_of_toNat_eq (f64Bits_toNat hlow hhigh he) (by omega) (by omega) (f64Bits_toNat_lt hk)]
    exact normalised_scale he hmin

/-- The quantizer keeps the top 53 bits of the raw word (R141). -/
theorem toNat_ushiftRight_floatShift (r : Word) : (r >>> Config.floatShift).toNat = r.toNat / 2 ^ 11 := by
  rw [BitVec.toNat_ushiftRight, Nat.shiftRight_eq_div_pow]

theorem toNat_ushiftRight_floatShift_lt (r : Word) : (r >>> Config.floatShift).toNat < 2 ^ 53 := by
  have hr := r.isLt
  rw [toNat_ushiftRight_floatShift]
  omega

/-- What the answer to the raw word `r` stands for (R141). -/
theorem f64Value_quantize (r : Word) : f64Value (quantize r) = ((r.toNat / 2 ^ 11 : Nat) : Rat) / 2 ^ 53 := by
  rw [quantize, f64Value_f64Bits (toNat_ushiftRight_floatShift_lt r), toNat_ushiftRight_floatShift]

/-- Settles O48: the bounds are those of `k / 2^53` for `0 ≤ k < 2^53`. -/
theorem quantizerIsExact : Obligations.QuantizerIsExact := by
  intro r
  have hk := toNat_ushiftRight_floatShift_lt r
  refine ⟨f64Value_quantize r, ?_, ?_, Nat.testBit_lt_two_pow (f64Bits_toNat_lt hk)⟩
  · rw [f64Value_quantize]
    positivity
  · rw [f64Value_quantize, div_lt_one (by positivity), ← toNat_ushiftRight_floatShift]
    exact_mod_cast hk

/-! Uniformity (R146): the raw words that give one number are a run of `2^11` consecutive ones. -/

/-- The answer stands for `k / 2^53` exactly if `k` is what the top 53 bits of the raw word are. -/
theorem f64Value_quantize_eq_iff (r : Word) (k : Nat) : f64Value (quantize r) = (k : Rat) / 2 ^ 53 ↔ r.toNat / 2 ^ 11 = k := by
  rw [f64Value_quantize, div_left_inj' (by positivity), Nat.cast_inj]

/-- The raw words that give `k / 2^53`, as numbers. -/
theorem image_quantize_fiber_eq_Ico {k : Nat} (hk : k < 2 ^ 53) :
    BitVec.toNat '' {r : Word | f64Value (quantize r) = (k : Rat) / 2 ^ 53} = Set.Ico (k * 2 ^ 11) (k * 2 ^ 11 + 2 ^ 11) := by
  ext n
  simp only [Set.mem_image, Set.mem_ofPred_eq, f64Value_quantize_eq_iff, Set.mem_Ico]
  constructor
  · rintro ⟨r, rfl, rfl⟩
    omega
  · rintro ⟨hlow, hhigh⟩
    have hofNat : (BitVec.ofNat 64 n).toNat = n := (BitVec.toNat_ofNat n 64).trans (Nat.mod_eq_of_lt (by omega))
    exact ⟨BitVec.ofNat 64 n, by omega, hofNat⟩

/-- Settles O50: the raw words of one number are counted by the ends of their run. -/
theorem quantizerIsUniform : Obligations.QuantizerIsUniform := by
  intro k hk
  rw [← Set.ncard_image_of_injective _ (fun _ _ => BitVec.eq_of_toNat_eq), image_quantize_fiber_eq_Ico hk, Set.ncard_Ico_nat,
    Nat.add_sub_cancel_left]

/-! The command (R144). -/

/-- With a state, `F64` makes one draw and answers its quantized word (R144). -/
theorem execF64_seeded {s : State} (hs : s.seeded = true) :
    execF64 s = .next ((s.setPair (advance 1 s.pair)).respond (quantize (rawWord s.pair 1))) :=
  if_neg (by simp [hs])

/-- Settles O47: behind the check of `SEEDED`, `F64` is one draw. -/
theorem f64DrawsOneWord : Obligations.F64DrawsOneWord := fun _ =>
  ⟨execF64_seeded, exec_unseeded (by simp)⟩

end Sys2Proof.Machine
end

section
/-! The obligations of 44_bulk_fill.md: the empty fill (R154), that the address does not matter to the bytes (R156), splitting a
fill at a chunk (R155, R197), and a fill as a run of `U64` commands (R160). -/

namespace Sys2Proof.Machine

@[simp] theorem fillResult_pair (a len : Word) (s : State) :
    (fillResult a len s).pair = advance (fillDraws len.toNat) s.pair := rfl

/-- Settles O53: no address is written, so none has to be backed, and the draws are `ceil(0 / 8)`. -/
theorem emptyFill : Obligations.EmptyFill := fun a _ hs =>
  execFill_runs hs a.isLt.le rfl

/-- Settles O55: the pair and the bytes of the region are those of the raw words, by number and not by address. -/
theorem fillBytesIgnoreAddress : Obligations.FillBytesIgnoreAddress := by
  intro a b len s t u hs ha hb ht hu
  obtain rfl := execFill_next hs ha ht
  obtain rfl := execFill_next hs hb hu
  refine ⟨rfl, fun i hi => ?_⟩
  rw [memRead_fillResult_region a len s hi, memRead_fillResult_region b len s hi]

/-! Splitting a fill at a chunk (R155, R197). -/

/-- The raw words after `k` draws are those of the state before them, counted on (R91). -/
theorem rawWord_advance (k : Nat) (g : Gen) (i : Nat) : rawWord (advance k g) i = rawWord g (k + i) := by
  rw [rawWord, rawWord, advance_add]

/-- `k` chunks take `k` draws, and what follows them as many as it takes alone. -/
theorem fillDraws_chunks_add (k m : Nat) : fillDraws (8 * k + m) = k + fillDraws m := by
  unfold fillDraws
  omega

/-- The byte writes `k` chunks further on, counted from the state `k` draws later. -/
theorem fillCell_chunks (a k : Nat) (g : Gen) (i : Nat) :
    fillCell (a + 8 * k) (advance k g) i = fillCell a g (8 * k + i) := by
  have hword : (8 * k + i) / 8 + 1 = k + (i / 8 + 1) := by omega
  have hbyte : (8 * k + i) % 8 = i % 8 := by omega
  simp only [fillCell, rawWord_advance, hword, hbyte, Nat.add_assoc]

/-- A fill is its first `k` chunks, and then a fill from the address and the state they lead to. -/
theorem fillRun_chunks_add (a k m : Nat) (g : Gen) :
    fillRun a (8 * k + m) g =
      ((fillRun a (8 * k) g).1 ++ (fillRun (a + 8 * k) m (advance k g)).1, (fillRun (a + 8 * k) m (advance k g)).2) := by
  simp only [fillRun_eq, fillDraws_chunks_add, advance_add, List.range_add, List.map_append, List.map_map, Prod.mk.injEq,
    List.append_cancel_left_eq, and_true]
  exact List.map_congr_left fun i _ => (fillCell_chunks a k g i).symm

/-- Settles O56: the two fills issue, one after the other, the byte writes of the one. -/
theorem fillSplitsAtChunks : Obligations.FillSplitsAtChunks := by
  intro a b n m l s t u v hs hn hl hb ha ht hu hv
  obtain ⟨k, hk⟩ := Nat.dvd_of_mod_eq_zero hn
  obtain rfl := execFill_next hs (by omega) ht
  obtain rfl := execFill_next (s := fillResult a n s) hs (by omega) hu
  obtain rfl := execFill_next hs ha hv
  have hdraws : fillDraws (8 * k) = k := fillDraws_chunks_add k 0
  have hmem : (fillResult b m (fillResult a n s)).mem = (fillResult a l s).mem := by
    simp [fillResult, hl, hb, hk, hdraws, fillRun_chunks_add, memWriteAll_append]
  refine ⟨?_, fun c => by rw [hmem]⟩
  simp only [fillResult_pair, hl, hk, hdraws, fillDraws_chunks_add, advance_add]

/-! A fill as a run of `U64` commands (R160). -/

/-- Settles O57: what the run leaves is O32's, and byte `j` of chunk `i` is byte `8 i + j` of the region. -/
theorem fillEqualsU64s : Obligations.FillEqualsU64s := by
  intro n a len s t u hs hlen ha ht hu
  obtain rfl := execFill_next hs ha ht
  cases hu.symm.trans (sequenceLaw n _ [] hs (List.append_nil _).symm)
  have hdraws : fillDraws len.toNat = n := hlen ▸ fillDraws_chunks_add n 0
  refine ⟨?_, by simp, fun i hi => ⟨rawWord s.pair (i + 1), ?_, fun j hj => ?_⟩⟩
  · rw [fillResult_pair, hdraws]
    rfl
  · change ((List.range n).map _)[i]? = _
    rw [List.getElem?_map, List.getElem?_range hi]
    rfl
  · have hword : (8 * i + j) / 8 = i := by omega
    have hbyte : (8 * i + j) % 8 = j := by omega
    rw [Nat.add_assoc, memRead_fillResult_region a len s (by omega), hword, hbyte]

end Sys2Proof.Machine
end

section
/-! The obligations of 60_exceptions.md: the order of the checks (R177) and what a response other than `OK` leaves (R178); and,
of 70_reset_and_hazards.md, the block with nothing presented (R188). -/

namespace Sys2Proof.Machine

/-- Settles O8. -/
theorem idleStepChangesNothing : Obligations.IdleStepChangesNothing := fun _ => step_nil

/-! One response, and a condition raised changes nothing else (R170, R178). -/

/-- A command that goes on raises a condition, or issues one response, which is `OK`. -/
theorem exec_next_answers {i : Instr} {s t : State} (h : exec i s = .next t) :
    (∃ c, t = s.raise c) ∨ ∃ v, t.responses = s.responses ++ [⟨.ok, v⟩] := by
  have hc := exec_case i s
  rw [h] at hc
  cases hc with
  | raised c hc => exact .inl ⟨c, rfl⟩
  | read v => exact .inr ⟨v, rfl⟩
  | established g hg => exact .inr ⟨0, rfl⟩
  | drawn k v hs hk => exact .inr ⟨v, rfl⟩
  | filled a len hs ha hb => exact .inr ⟨0, rfl⟩

/-- A word that goes on raises a condition, or issues one response, which is `OK`. -/
theorem runWord_next_answers {w : CmdWord} {s t : State} (h : runWord w s = .next t) :
    (∃ c, t = s.raise c) ∨ ∃ v, t.responses = s.responses ++ [⟨.ok, v⟩] := by
  rcases runWord_case w s with ⟨i, -, hrun⟩ | ⟨-, hrun⟩
  · exact exec_next_answers (hrun.symm.trans h)
  · exact .inl ⟨.illegal, Host.Outcome.next.inj (h.symm.trans hrun)⟩

/-- Settles O17: a response other than `OK` comes of a condition raised, which answers 0 and writes nothing. -/
theorem failingCommandChangesNothing : Obligations.FailingCommandChangesNothing := by
  intro w s t h
  rcases runWord_next_answers h with ⟨c, rfl⟩ | ⟨v, hv⟩
  · exact ⟨⟨c, 0⟩, rfl, fun _ => ⟨rfl, rfl⟩⟩
  · exact ⟨⟨.ok, v⟩, hv, fun hne => absurd rfl hne⟩

/-! The order of the checks (R177). -/

/-- An undefined opcode raises `ILLEGAL` (R64, R172). -/
theorem runWord_of_illegal {w : CmdWord} (hd : decode w = .illegal) (s : State) : runWord w s = .next (s.raise .illegal) := by
  unfold runWord
  rw [hd]

/-- With `SEEDED = 1`, a `FILL` whose region passes the top of the address space raises `BUF_WRAP` (R158, R176). -/
theorem execFill_bufWrap {a len : Word} {s : State} (hs : s.seeded = true) (hw : 2 ^ 64 < a.toNat + len.toNat) :
    execFill a len s = .next (s.raise .bufWrap) := by
  rw [execFill, if_neg (by simp [hs]), if_pos (by simpa [bufWraps] using hw)]

/-- Settles O20: one check after the other; `SEED` and `STAT` make none. -/
theorem orderOfChecks : Obligations.OrderOfChecks :=
  ⟨fun _ s hd => runWord_of_illegal hd s,
    fun _ hs _ hi => exec_unseeded hi hs,
    fun _ hs _ _ hlt => execBtw_range hs hlt,
    fun _ hs _ _ hw => execFill_bufWrap hs hw,
    fun s _ _ _ => ⟨execLds_zero s, fun hne => execLds_of_ne_zero hne s, ⟨_, rfl, rfl⟩, rfl⟩⟩

end Sys2Proof.Machine
end

section
/-! The obligations of 70_reset_and_hazards.md: reset between commands (R190), reset during a command (R191) and how many draws each
command makes (R198). -/

namespace Sys2Proof.Machine

/-! Reset (R190, R191). -/

/-- Settles O9. -/
theorem resetStep : Obligations.ResetStep := fun _ _ hi => ⟨_, step_reset hi, rfl, rfl, rfl, rfl, rfl, rfl⟩

/-- An abandoned word other than a `FILL` leaves no trace of itself (R191). -/
theorem abandonWord_of_not_fill {w : CmdWord} (hw : ∀ a len, decode w ≠ .command (.fill a len)) (s : State) :
    abandonWord w s = .next s.takeReset := by
  unfold abandonWord
  cases hd : decode w with
  | illegal => rfl
  | command i =>
    cases i with
    | fill a len => exact absurd hd (hw a len)
    | _ => rfl

theorem abandonWord_of_fill {w : CmdWord} {a len : Word} (hd : decode w = .command (.fill a len)) (s : State) :
    abandonWord w s = abandonFill a len s := by
  unfold abandonWord
  rw [hd]
  rfl

/-- An abandoned `FILL` that would have answered an error has written nothing (R157, R191). -/
theorem abandonFill_of_fails {a len : Word} {s : State} (h : ¬ (s.seeded = true ∧ a.toNat + len.toNat ≤ 2 ^ 64)) :
    abandonFill a len s = .next s.takeReset := by
  unfold abandonFill
  split
  · rfl
  · rename_i hs
    exact if_pos (by simpa [bufWraps, not_eq_false hs] using h)

/-- An abandoned `FILL` that passes its checks has made the first of its byte writes (R47, R191). -/
theorem abandonFill_of_passes {a len : Word} {s : State} (hs : s.seeded = true) (ha : a.toNat + len.toNat ≤ 2 ^ 64)
    (hb : regionBacked s.backed a.toNat len.toNat = true) :
    abandonFill a len s = .next (s.setMem (memWriteAll s.mem
      ((fillRun a.toNat len.toNat s.pair).1.take (writtenBeforeReset s.freeCount len.toNat)))).takeReset := by
  rw [abandonFill, if_neg (by simp [hs]), if_neg (by simpa [bufWraps] using ha), if_neg (by simp [hb])]

theorem writtenBeforeReset_le (n len : Nat) : writtenBeforeReset n len ≤ len :=
  Nat.le_of_lt_succ (Nat.mod_lt _ len.succ_pos)

/-- Reset during a `FILL`: if it passes its checks, the first `k` bytes of its region are written, and else nothing is (R191). -/
theorem abandonFill_next {a len : Word} {s : State}
    (hb : s.seeded = true → a.toNat + len.toNat ≤ 2 ^ 64 → regionBacked s.backed a.toNat len.toNat = true) :
    ∃ m, abandonFill a len s = .next (s.setMem m).takeReset ∧ ∃ k ≤ len.toNat, ∀ b, memRead m b =
      if s.seeded = true ∧ a.toNat + len.toNat ≤ 2 ^ 64 ∧ a.toNat ≤ b ∧ b < a.toNat + k then
        some (wordByte (rawWord s.pair ((b - a.toNat) / 8 + 1)) ((b - a.toNat) % 8))
      else memRead s.mem b := by
  by_cases h : s.seeded = true ∧ a.toNat + len.toNat ≤ 2 ^ 64
  · obtain ⟨hs, ha⟩ := h
    have hk := writtenBeforeReset_le s.freeCount len.toNat
    refine ⟨_, abandonFill_of_passes hs ha (hb hs ha), _, hk, fun b => ?_⟩
    simp only [memRead_fillRun_take s.mem s.pair b hk, hs, ha, true_and]
  · exact ⟨s.mem, abandonFill_of_fails h, 0, Nat.zero_le _, fun b => (if_neg fun ⟨hs, ha, _⟩ => h ⟨hs, ha⟩).symm⟩

/-- Settles O10, by whether the word is a `FILL`. -/
theorem resetInFlight : Obligations.ResetInFlight := by
  intro s w rest hi hb
  rw [step_resetDuring hi]
  by_cases hfill : ∃ a len, decode w = .command (.fill a len)
  · obtain ⟨a, len, hd⟩ := hfill
    obtain ⟨m, hrun, hmem⟩ := abandonFill_next (s := s.accept rest) (hb a len hd)
    refine ⟨_, (abandonWord_of_fill hd _).trans hrun, rfl, rfl, rfl, rfl, fun hne => absurd hd (hne a len), ?_⟩
    intro a' len' hd'
    cases hd.symm.trans hd'
    exact hmem
  · have hne : ∀ a len, decode w ≠ .command (.fill a len) := fun a len hd => hfill ⟨a, len, hd⟩
    exact ⟨_, abandonWord_of_not_fill hne _, rfl, rfl, rfl, rfl, fun _ => rfl, fun a len hd => absurd hd (hne a len)⟩

/-! The draws of a command that answers `OK` (R198). -/

/-- A condition raised is not answered `OK` (R170). -/
theorem raise_responses_ne_ok (s : State) {c : Status} (hc : c ≠ .ok) (v : Word) :
    (s.raise c).responses ≠ s.responses ++ [⟨.ok, v⟩] := by
  simp [hc]

section
variable {s t : State} {v : Word} (hok : t.responses = s.responses ++ [⟨.ok, v⟩])
include hok

theorem exec_ne_raise_of_ok {i : Instr} (h : exec i s = .next t) {c : Status} (hc : c ≠ .ok) :
    exec i s ≠ .next (s.raise c) := by
  intro hraise
  cases h.symm.trans hraise
  exact raise_responses_ne_ok s hc v hok

/-- A command that needs a state has one if it answers `OK` (R173). -/
theorem seeded_of_ok {i : Instr}
    (hi : i = .getx ∨ i = .gety ∨ i = .u64 ∨ i = .f64 ∨ (∃ lo hi, i = .btw lo hi) ∨ ∃ a len, i = .fill a len)
    (h : exec i s = .next t) : s.seeded = true :=
  not_eq_false fun hs => exec_ne_raise_of_ok hok h (by decide) (exec_unseeded hi hs)

theorem u64_pair_of_ok (h : exec .u64 s = .next t) : t.pair = advance 1 s.pair := by
  cases h.symm.trans (execU64_seeded (seeded_of_ok hok (by simp) h))
  rfl

theorem f64_pair_of_ok (h : exec .f64 s = .next t) : t.pair = advance 1 s.pair := by
  cases h.symm.trans (execF64_seeded (seeded_of_ok hok (by simp) h))
  rfl

/-- A `BTW` that answers `OK` stops at the first draw it accepts (R128). -/
theorem btw_pair_of_ok {lo hi : Word} (h : exec (.btw lo hi) s = .next t) :
    ∃ k, FirstAccepted lo hi s.pair k ∧ t.pair = advance k s.pair := by
  have hs := seeded_of_ok hok (by simp) h
  have hle : lo ≤ hi := BitVec.not_lt.1 fun hlt => exec_ne_raise_of_ok hok h (by decide) (execBtw_range hs hlt)
  cases hb : between lo hi s.pair with
  | none => cases h.symm.trans (execBtw_of_none hs hle hb)
  | some r =>
    obtain ⟨k, hk, rfl⟩ := between_first hle hb
    cases h.symm.trans (execBtw_of_some hs hle hb)
    exact ⟨k, hk, rfl⟩

theorem fill_pair_of_ok {a len : Word} (h : exec (.fill a len) s = .next t) : t.pair = advance (fillDraws len.toNat) s.pair := by
  have hs := seeded_of_ok hok (by simp) h
  have ha : a.toNat + len.toNat ≤ 2 ^ 64 :=
    Nat.le_of_not_lt fun hw => exec_ne_raise_of_ok hok h (by decide) (execFill_bufWrap hs hw)
  obtain rfl := execFill_next hs ha h
  rfl

theorem lds_pair_of_ok {x y : Word} (h : exec (.lds x y) s = .next t) : t.pair = (x, y) := by
  rcases execLds_cases x y s with hraise | ⟨-, hrun⟩
  · exact absurd hraise (exec_ne_raise_of_ok hok h (by decide))
  · cases h.symm.trans hrun
    rfl

end

/-- Settles O24, command by command; equal bounds accept draw 1, and no other draw is the first they accept. -/
theorem drawCounts : Obligations.DrawCounts := by
  intro i s t v h hok
  refine ⟨fun hi => ?_, ?_, ?_, ?_, ?_, ?_⟩
  · obtain ⟨r, hr⟩ := exec_read_eq hi s
    cases h.symm.trans hr
    rfl
  · rintro (rfl | rfl)
    · exact u64_pair_of_ok hok h
    · exact f64_pair_of_ok hok h
  · rintro lo hi rfl
    obtain ⟨k, hk, hpair⟩ := btw_pair_of_ok hok h
    refine ⟨⟨k, hk, hpair⟩, ?_⟩
    rintro rfl
    rwa [hk.unique (firstAccepted_one_of_eq lo s.pair)] at hpair
  · rintro a len rfl
    exact fill_pair_of_ok hok h
  · rintro x y rfl
    exact lds_pair_of_ok hok h
  · rintro u rfl
    cases h
    rfl

end Sys2Proof.Machine
end
